-- ==== Sys2Proof/Word.lean ====
section
/-! DEFINITION. Bytes, byte strings of fixed length and the data that travels with a command: the plain data types every
other file is written over (00_scope.md R8, 10_state.md R11 to R15, 30_encoding.md R46 and R53). -/

namespace Sys2Proof

/-- A byte, bit 7 most significant (R8). -/
abbrev Byte := BitVec 8

/-- A 16-byte string: a block, a key, a round key or the State register (R6, R12). -/
abbrev Block := Vector Byte 16

/-- A word of a round key: four bytes in sequence, never a 32-bit number (R35). -/
abbrev Word4 := Vector Byte 4

/-- The contents of the expanded-key store `XK` (R14). -/
abbrev KeyStore := Vector Byte 176

/-- The string whose byte at index `i` is `f i`. -/
def tabulate {α : Type} {n : Nat} (f : Fin n → α) : Vector α n :=
  ⟨⟨List.ofFn f⟩, by simp⟩

/-- `a ⊕ b` on two byte strings of one length: index by index (R8, R62). -/
def xorBytes {n : Nat} (a b : Vector Byte n) : Vector Byte n :=
  tabulate fun i => a[i] ^^^ b[i]

/-- The round index r of KROT, KRC and KXR, legal from 1 to 10 (R53). It is kept as `pred`, the index r-1 of the round
key that the round reads, so that no other round index can be written down (R56). -/
structure Round where
  pred : Fin 10
deriving DecidableEq, Repr

/-- The number r. -/
def Round.toNat (r : Round) : Nat := r.pred.val + 1

/-- r as the index of the round key that the round makes. -/
def Round.index (r : Round) : Fin 11 := r.pred.succ

/-- r-1 as the index of the round key that the round reads. -/
def Round.before (r : Round) : Fin 11 := r.pred.castSucc

/-- One operand of a command: a byte string with its length, or a natural number (R46, R48). -/
inductive Operand where
  | bytes (s : List Byte)
  | number (n : Nat)
deriving DecidableEq, Repr

/-- A command as the host issues it: the opcode byte and the operands that follow it (R46). A micro-operation word is
such a word with no operand (R57). -/
structure Command where
  op : Byte
  operands : List Operand
deriving DecidableEq, Repr

end Sys2Proof
end

