-- ==== Sys2Proof/Config.lean ====
section
/-! DEFINITION. What is fixed for one engine and is no state: the parameters `TABLES` and `MAXLEN` (00_scope.md R7), and
the free values for what RESET leaves unspecified (10_state.md R24, 70_reset_and_hazards.md R141). -/

namespace Sys2Proof

/-- The table ROM (R19): eight tables of one byte per byte, and the ten round constants. -/
structure Tables where
  SBOX : Byte → Byte
  INVSBOX : Byte → Byte
  MUL2 : Byte → Byte
  MUL3 : Byte → Byte
  MUL9 : Byte → Byte
  MUL11 : Byte → Byte
  MUL13 : Byte → Byte
  MUL14 : Byte → Byte
  RCON : Round → Byte

/-- The open parameters of R7. `maxLen = none` is the unbounded `MAXLEN`. -/
structure Config where
  maxLen : Option Nat
  tables : Tables

/-- A message of `len` bytes is admitted: `len <= MAXLEN` (R113). -/
def Config.admits (c : Config) (len : Nat) : Bool :=
  match c.maxLen with
  | none => true
  | some m => decide (len ≤ m)

/-- A bounded `MAXLEN` is a multiple of 16, so that padding never takes a message over it (R113). -/
def Config.legal (c : Config) : Bool :=
  match c.maxLen with
  | none => true
  | some m => decide (m % 16 = 0)

/-- The free value of byte `i` that the RESET event with number `n` leaves behind where the bytes were `old` (R24, R141:
unspecified). That it may depend on the old bytes, which R142 allows to stay, is the model's choice: DESIGN CHOICE, log
entry 2. -/
opaque Config.freeByte : (n i : Nat) → (old : List Byte) → Byte

end Sys2Proof
end

