-- ==== Sys2Proof/Machine/State.lean ====
section
/-! DEFINITION. The state of the engine (10_state.md R11 to R25), the responses (30_encoding.md R49, R50), the host's
events, and the reasons a step can stop. -/

namespace Sys2Proof.Machine

/-- The three schedules of the schedule ROM (R20). -/
inductive Schedule where
  | KS
  | ENC
  | DEC
deriving DecidableEq, Repr

/-- The status of a response (R50). No other status value is ever produced. -/
inductive Status where
  | ok
  | invalidKeyLength
  | invalidBlockAlignment
  | keyNotExpanded
  | invalidOutputLength
  | illegalCommand
deriving DecidableEq, Repr

/-- The response to one command: a status and a byte string (R49). -/
structure Response where
  status : Status
  data : List Byte
deriving DecidableEq, Repr

/-- What the host can do to the engine: issue a command (R46) or cause the reset event (R141). -/
inductive HostEvent where
  | command (c : Command)
  | reset
deriving DecidableEq, Repr

/-- Why the engine has no next state. -/
inductive Fault where
  /-- Raised by the sequencer on a word that is no micro-operation: `stuck` (R56, 93_implementation_defined.md U11).
  No word of the schedule ROM raises it. Safe: the model stops where the spec defines nothing. -/
  | reservedWord
deriving DecidableEq, Repr

/-- Why the model gives an instruction no meaning. -/
inductive Refusal where
  /-- Raised by the dispatch for an instruction that has no meaning yet (none). Safe. -/
  | notModelled (mnemonic : String)
  /-- Raised by ENCM and DECM for a message longer than a bounded `MAXLEN` (R113, U5); never with `MAXLEN` unbounded.
  Safe. -/
  | messageTooLong
  /-- Raised by the host port for a legal opcode with the wrong number or kind of operands, which "has no meaning"
  (R48). Safe. -/
  | malformedCommand
deriving DecidableEq, Repr

/-- The engine's state. `ST`, `TW`, `XK`, `KVALID` and `UPC` are the five items of R11; the rest is what the rules imply
of an engine between and inside commands. -/
structure State where
  /-- The State register, column-major (R12). -/
  ST : Block
  /-- The key-schedule temporary word (R13). -/
  TW : Word4
  /-- The expanded-key store (R14). -/
  XK : KeyStore
  /-- `XK` holds a complete expansion (R16). -/
  KVALID : Bool
  /-- The micro program counter (R18). -/
  UPC : Fin 41
  /-- The schedule that is running; none between commands. DEDUCED from R18 and R55, log entry 6. -/
  RUN : Option Schedule
  /-- What the host has issued and the engine has not taken, oldest first (R41). DESIGN CHOICE, log entry 4. -/
  pending : List HostEvent
  /-- The responses the host has received, oldest first (R22). DESIGN CHOICE, log entry 5. -/
  responses : List Response
  /-- How many RESET events have drawn free values: the model's own counter. DESIGN CHOICE, log entry 3. -/
  draws : Nat
deriving DecidableEq, Repr

/-- The engine right after reset (R24): `KVALID` and `UPC` are 0 and it waits for a command. The contents of `XK`, `ST`
and `TW` are unspecified there; zero is the model's DESIGN CHOICE, log entry 1. -/
def State.reset : State where
  ST := tabulate fun _ => 0
  TW := tabulate fun _ => 0
  XK := tabulate fun _ => 0
  KVALID := false
  UPC := 0
  RUN := none
  pending := []
  responses := []
  draws := 0

end Sys2Proof.Machine
end

