-- ==== Sys2Proof/Machine/Ops.lean ====
section
/-! DEFINITION. The named operations over the state: access to `XK` (20_memory.md R28 to R35), the response to a command
and the error raised by one (60_exceptions.md R126), and the RESET event (70_reset_and_hazards.md R141). -/

namespace Sys2Proof.Machine

/-- Go on from a next state, stop where `o` stopped. -/
def andThen {α β : Type} (o : Host.Outcome α Fault Refusal) (f : α → Host.Outcome β Fault Refusal) :
    Host.Outcome β Fault Refusal :=
  match o with
  | .next a => f a
  | .fault r => .fault r
  | .refused r => .refused r

/-- `MemRead(a, n)`: the bytes `XK[a .. a+n)` (R9). -/
def memRead (xk : KeyStore) (a n : Nat) (h : a + n ≤ 176) : Vector Byte n :=
  tabulate fun i => xk[a + i.val]

/-- `MemWrite(a, n, v)`: `XK[a .. a+n) <- v` (R9). -/
def memWrite {n : Nat} (xk : KeyStore) (a : Nat) (v : Vector Byte n) (h : a + n ≤ 176) : KeyStore :=
  ⟨⟨xk.toArray.toList.take a ++ v.toArray.toList ++ xk.toArray.toList.drop (a + n)⟩, by simp; omega⟩

/-- Round key r, `RK(r) = XK[16r .. 16r+16)` (R15, R34). -/
def roundKey (xk : KeyStore) (r : Fin 11) : Block := memRead xk (16 * r.val) 16 (by omega)

/-- Word j of a round key, its bytes 4j to 4j+3 (R35). -/
def blockWord (b : Block) (j : Fin 4) : Word4 := tabulate fun i => b[4 * j.val + i.val]

/-- Word j of round key r, `W(r,j) = XK[16r+4j .. 16r+4j+4)` (R15, R35). -/
def keyWord (xk : KeyStore) (r : Fin 11) (j : Fin 4) : Word4 := memRead xk (16 * r.val + 4 * j.val) 4 (by omega)

/-- `W(r,j) <- w` (R15). -/
def writeKeyWord (xk : KeyStore) (r : Fin 11) (j : Fin 4) (w : Word4) : KeyStore :=
  memWrite xk (16 * r.val + 4 * j.val) w (by omega)

/-- The key load, `XK[0..16) <- key` (R33). -/
def loadKey (key : Block) (s : State) : State := { s with XK := memWrite s.XK 0 key (by omega) }

/-- The block load, `ST <- block` (R33). -/
def loadBlock (block : Block) (s : State) : State := { s with ST := block }

/-- The status codes of R50. -/
def Status.code : Status → Byte
  | .ok => 0x00
  | .invalidKeyLength => 0x01
  | .invalidBlockAlignment => 0x02
  | .keyNotExpanded => 0x03
  | .invalidOutputLength => 0x04
  | .illegalCommand => 0x05

/-- `respond(status, data)`: the command ends and the host receives the pair (R9, R49). -/
def respond (status : Status) (data : List Byte) (s : State) : State :=
  { s with responses := s.responses ++ [⟨status, data⟩] }

/-- `raise E`, the one way an error is taken: the command ends with the status of E and empty data, and no architectural
state changes (R126). There is no handler, no saved state and no mode, hence no return from an error (R130). -/
def raise (e : Status) (s : State) : Host.Outcome State Fault Refusal := .next (respond e [] s)

/-- The 196 bytes that RESET leaves unspecified: `XK`, then `ST`, then `TW` (R141). -/
def dataBytes (s : State) : List Byte := s.XK.toList ++ s.ST.toList ++ s.TW.toList

/-- The RESET event (R141): `KVALID` and `UPC` are 0, and the contents of `XK`, `ST` and `TW` are unspecified, so each
byte is a free value of its own. The spec leaves open whether the new bytes have to do with the old ones (R142:
"unspecified" allows zeros and allows the old bytes to stay). DESIGN CHOICE, log entry 2: each free value is a function of
the event's number, the byte's number and all 196 old bytes, so neither erasure, nor survival, nor independence of the old
key can be proved. -/
def resetEvent (s : State) : State :=
  { s with
    KVALID := false
    UPC := 0
    RUN := none
    XK := tabulate fun i => Config.freeByte s.draws i.val (dataBytes s)
    ST := tabulate fun i => Config.freeByte s.draws (176 + i.val) (dataBytes s)
    TW := tabulate fun i => Config.freeByte s.draws (192 + i.val) (dataBytes s)
    draws := s.draws + 1 }

end Sys2Proof.Machine
end

