-- ==== Sys2Proof/Machine/Flags.lean ====
section
/-! DEFINITION. The flags: `KVALID` is the only one (10_state.md R16, R17). No micro-operation reads or writes it. -/

namespace Sys2Proof.Machine

/-- ENCB and DECB read `KVALID` (R16). -/
def keyValid (s : State) : Bool := s.KVALID

/-- EXPAND, ENCM and DECM set `KVALID` at the end of their key schedule (R16). -/
def setKeyValid (s : State) : State := { s with KVALID := true }

end Sys2Proof.Machine
end

