-- ==== Sys2Proof/Machine/Operands.lean ====
section
/-! DEFINITION. The operand forms of the commands: a string that must be 16 bytes, and a message that is padded and cut
into chunks (20_memory.md R36, 44_block_driver.md R109 and R110). -/

namespace Sys2Proof.Machine

/-- A key or block operand: the 16-byte string it is, or nothing where its length is not 16 (R122, R123). -/
def block16 (s : List Byte) : Option Block :=
  if h : s.length = 16 then some ⟨⟨s⟩, by simpa using h⟩ else none

/-- `PAD(m) = m ++ zeros(p)` with `p = (16 - (len(m) mod 16)) mod 16` (R109). -/
def pad (m : List Byte) : List Byte := m ++ List.replicate ((16 - m.length % 16) % 16) 0

/-- The number n of chunks of a padded string, `len(P) / 16` (R111, R114). -/
def chunkCount (p : List Byte) : Nat := p.length / 16

/-- `CHUNK(P, k) = P[16k .. 16k+16)` for k in 0..n-1 (R110). -/
def chunk (p : List Byte) (k : Fin (chunkCount p)) : Block :=
  tabulate fun i => p[16 * k.val + i.val]'(by have h := k.isLt; unfold chunkCount at h; omega)

end Sys2Proof.Machine
end

