-- ==== Sys2Proof/Syntax.lean ====
section
/-! DEFINITION. The instructions: one constructor per row of the opcode table, the five commands of 30_encoding.md R47
with their operands and the eleven micro-operations of R52 with their round index. -/

namespace Sys2Proof

/-- An instruction. The operands of a command are of any length (R48); a micro-operation has only the round indices of
R53, so that no reserved word can be written down (R56). -/
inductive Instr where
  /-- `EXPAND key` (R89). -/
  | expand (key : List Byte)
  /-- `ENCB block` (R99). -/
  | encb (block : List Byte)
  /-- `DECB block` (R107). -/
  | decb (block : List Byte)
  /-- `ENCM key, msg` (R114). -/
  | encm (key msg : List Byte)
  /-- `DECM key, ct, n=outlen` (R115). -/
  | decm (key ct : List Byte) (outlen : Nat)
  /-- `ARK r`, r from 0 to 10 (R93). -/
  | ark (r : Fin 11)
  /-- `SB` (R94). -/
  | sb
  /-- `SR` (R95). -/
  | sr
  /-- `MC` (R96). -/
  | mc
  /-- `ISB` (R101). -/
  | isb
  /-- `ISR` (R102). -/
  | isr
  /-- `IMC` (R103). -/
  | imc
  /-- `KROT r`, r from 1 to 10 (R83). -/
  | krot (r : Round)
  /-- `KSUB` (R84). -/
  | ksub
  /-- `KRC r`, r from 1 to 10 (R85). -/
  | krc (r : Round)
  /-- `KXR r`, r from 1 to 10 (R86). -/
  | kxr (r : Round)
deriving DecidableEq, Repr

/-- The instruction is a micro-operation: the sequencer executes it, the host cannot issue it (30_encoding.md, preamble). -/
def Instr.isMicro : Instr → Bool
  | .expand _ | .encb _ | .decb _ | .encm _ _ | .decm _ _ _ => false
  | .ark _ | .sb | .sr | .mc | .isb | .isr | .imc | .krot _ | .ksub | .krc _ | .kxr _ => true

end Sys2Proof
end

