-- ==== Sys2Proof/Decode.lean ====
section
/-! DEFINITION. Decoding and encoding (30_encoding.md R46 to R60). The engine has two decoders: of the commands the host
issues, and of the micro-operation words the sequencer fetches from the schedule ROM. Both are total and reject by
name. -/

namespace Sys2Proof

/-- Why the command decoder gives no instruction. -/
inductive CommandError where
  /-- The opcode is 0x00 or 0x06 to 0xFF (R56). -/
  | illegalCommand
  /-- The opcode is legal and its operands are not those of R47 in number and kind (R48). -/
  | malformedOperands
deriving DecidableEq, Repr

/-- Why the micro-operation decoder gives no instruction. -/
inductive UopError where
  /-- A reserved micro-operation word (R53, R56). -/
  | reservedWord
deriving DecidableEq, Repr

/-- Decode a command: the opcode selects how many operands follow and of what kind (R47, R57, R60). An illegal opcode is
illegal whatever follows it (R56). -/
def decodeCommand (c : Command) : Except CommandError Instr :=
  match c.op.toNat with
  | 0x01 =>
    match c.operands with
    | [.bytes key] => .ok (.expand key)
    | _ => .error .malformedOperands
  | 0x02 =>
    match c.operands with
    | [.bytes block] => .ok (.encb block)
    | _ => .error .malformedOperands
  | 0x03 =>
    match c.operands with
    | [.bytes block] => .ok (.decb block)
    | _ => .error .malformedOperands
  | 0x04 =>
    match c.operands with
    | [.bytes key, .bytes msg] => .ok (.encm key msg)
    | _ => .error .malformedOperands
  | 0x05 =>
    match c.operands with
    | [.bytes key, .bytes ct, .number outlen] => .ok (.decm key ct outlen)
    | _ => .error .malformedOperands
  | _ => .error .illegalCommand

/-- The r field of an operation that takes no round index must be 0 (R53). -/
def decodePlain (i : Instr) (r : Nat) : Except UopError Instr :=
  if r = 0 then .ok i else .error .reservedWord

/-- The r field of ARK: 0 to 10 (R53). -/
def decodeKeyIndex (r : Nat) : Except UopError Instr :=
  if h : r < 11 then .ok (.ark ⟨r, h⟩) else .error .reservedWord

/-- The r field of KROT, KRC and KXR: 1 to 10 (R53). -/
def decodeRound (make : Round → Instr) (r : Nat) : Except UopError Instr :=
  if h : 1 ≤ r ∧ r ≤ 10 then .ok (make ⟨⟨r - 1, by omega⟩⟩) else .error .reservedWord

/-- Decode a micro-operation word: `code = u[7:4]` selects the operation, `r = u[3:0]` is the round index (R51 to R53). -/
def decodeUop (u : Byte) : Except UopError Instr :=
  let code := (u >>> 4).toNat
  let r := (u &&& 0x0F).toNat
  match code with
  | 0x1 => decodeKeyIndex r
  | 0x2 => decodePlain .sb r
  | 0x3 => decodePlain .sr r
  | 0x4 => decodePlain .mc r
  | 0x5 => decodePlain .isb r
  | 0x6 => decodePlain .isr r
  | 0x7 => decodePlain .imc r
  | 0x8 => decodeRound .krot r
  | 0x9 => decodePlain .ksub r
  | 0xA => decodeRound .krc r
  | 0xB => decodeRound .kxr r
  | _ => .error .reservedWord

/-- The word of an instruction: its opcode byte and operands (R47), or its micro-operation word (R52). -/
def encode : Instr → Command
  | .expand key => ⟨0x01, [.bytes key]⟩
  | .encb block => ⟨0x02, [.bytes block]⟩
  | .decb block => ⟨0x03, [.bytes block]⟩
  | .encm key msg => ⟨0x04, [.bytes key, .bytes msg]⟩
  | .decm key ct outlen => ⟨0x05, [.bytes key, .bytes ct, .number outlen]⟩
  | .ark r => ⟨0x10 + BitVec.ofNat 8 r.val, []⟩
  | .sb => ⟨0x20, []⟩
  | .sr => ⟨0x30, []⟩
  | .mc => ⟨0x40, []⟩
  | .isb => ⟨0x50, []⟩
  | .isr => ⟨0x60, []⟩
  | .imc => ⟨0x70, []⟩
  | .krot r => ⟨0x80 + BitVec.ofNat 8 r.toNat, []⟩
  | .ksub => ⟨0x90, []⟩
  | .krc r => ⟨0xA0 + BitVec.ofNat 8 r.toNat, []⟩
  | .kxr r => ⟨0xB0 + BitVec.ofNat 8 r.toNat, []⟩

/-- The operands of a command whose operand bits are all 0: each byte string is 16 bytes of 0x00 and the number is 0.
DESIGN CHOICE, log entry 12: the spec gives operands no bits (R46). -/
def zeroOperands (op : Byte) : List Operand :=
  let zeros := List.replicate 16 (0 : Byte)
  match op.toNat with
  | 0x01 | 0x02 | 0x03 => [.bytes zeros]
  | 0x04 => [.bytes zeros, .bytes zeros]
  | 0x05 => [.bytes zeros, .bytes zeros, .number 0]
  | _ => []

/-- The first byte of a table word of `nbits` bits. -/
def tableByte (nbits w : Nat) : Byte := BitVec.ofNat 8 (w % 2 ^ nbits)

/-- The instruction the engine's decoders read from a word of the opcode table: a micro-operation word as the sequencer
reads it, any other byte as the opcode of a command with zero operands. -/
def decodeTableWord (nbits w : Nat) : Option Instr :=
  let u := tableByte nbits w
  match decodeUop u with
  | .ok i => some i
  | .error _ =>
    match decodeCommand ⟨u, zeroOperands u⟩ with
    | .ok i => some i
    | .error _ => none

end Sys2Proof
end

