-- ==== Sys2Proof/Machine/Forward.lean ====
section
/-! DEFINITION. The forward block transform (42_forward_transform.md): ARK, SB, SR, MC and the function `Encrypt`. -/

namespace Sys2Proof.Machine

/-- SubBytes on a 16-byte string (R94). -/
def subBytes (t : Tables) (b : Block) : Block := tabulate fun i => t.SBOX b[i]

/-- ShiftRows on a 16-byte string: byte i takes byte `(i + 4*(i mod 4)) mod 16` (R95). -/
def shiftRows (b : Block) : Block := tabulate fun i => b[(i.val + 4 * (i.val % 4)) % 16]

/-- Row `row` of column `col` of the matrix view, `s(row, col) = b[4*col + row]` (R8, R12). -/
def matrixByte (b : Block) (row col : Fin 4) : Byte := b[4 * col.val + row.val]

/-- One column of MixColumns (R96). -/
def mixColumn (t : Tables) (c0 c1 c2 c3 : Byte) : Word4 :=
  #v[t.MUL2 c0 ^^^ t.MUL3 c1 ^^^ c2 ^^^ c3,
     c0 ^^^ t.MUL2 c1 ^^^ t.MUL3 c2 ^^^ c3,
     c0 ^^^ c1 ^^^ t.MUL2 c2 ^^^ t.MUL3 c3,
     t.MUL3 c0 ^^^ c1 ^^^ c2 ^^^ t.MUL2 c3]

/-- The string whose column `col` is `f` of the four bytes of column `col` of `b`, rows 0 to 3 (R12). -/
def mapColumns (f : Byte → Byte → Byte → Byte → Word4) (b : Block) : Block :=
  tabulate fun i =>
    let col : Fin 4 := ⟨i.val / 4, by omega⟩
    (f (matrixByte b 0 col) (matrixByte b 1 col) (matrixByte b 2 col) (matrixByte b 3 col))[i.val % 4]

/-- MixColumns on a 16-byte string (R96). -/
def mixColumns (t : Tables) (b : Block) : Block := mapColumns (mixColumn t) b

/-- SB with the tables of `c` (R94). -/
def sbWith (c : Config) (s : State) : Host.Outcome State Fault Refusal := .next { s with ST := subBytes c.tables s.ST }

/-- MC with the tables of `c` (R96). -/
def mcWith (c : Config) (s : State) : Host.Outcome State Fault Refusal := .next { s with ST := mixColumns c.tables s.ST }

/-- ARK r: `ST <- ST ⊕ RK(r)` (R93). -/
def execArk (r : Fin 11) (s : State) : Host.Outcome State Fault Refusal :=
  .next { s with ST := xorBytes s.ST (roundKey s.XK r) }

/-- SB (R94). -/
def execSb (s : State) : Host.Outcome State Fault Refusal := sbWith engine s

/-- SR (R95). -/
def execSr (s : State) : Host.Outcome State Fault Refusal := .next { s with ST := shiftRows s.ST }

/-- MC (R96). -/
def execMc (s : State) : Host.Outcome State Fault Refusal := mcWith engine s

/-- One standard round of `Encrypt`, with round key r (R98). -/
def forwardRound (t : Tables) (xk : KeyStore) (s : Block) (r : Fin 11) : Block :=
  xorBytes (mixColumns t (shiftRows (subBytes t s))) (roundKey xk r)

/-- The function `Encrypt(block, xk)` (R98). -/
def encrypt (t : Tables) (block : Block) (xk : KeyStore) : Block :=
  let s := xorBytes block (roundKey xk 0)
  let s := [1, 2, 3, 4, 5, 6, 7, 8, 9].foldl (forwardRound t xk) s
  xorBytes (shiftRows (subBytes t s)) (roundKey xk 10)

end Sys2Proof.Machine
end

