-- ==== Sys2Proof/Machine/Inverse.lean ====
section
/-! DEFINITION. The inverse block transform (43_inverse_transform.md): ISB, ISR, IMC and the function `Decrypt`. -/

namespace Sys2Proof.Machine

/-- Inverse SubBytes on a 16-byte string (R101). -/
def invSubBytes (t : Tables) (b : Block) : Block := tabulate fun i => t.INVSBOX b[i]

/-- Inverse ShiftRows on a 16-byte string: byte i takes byte `(i - 4*(i mod 4)) mod 16`, the remainder in 0..15 (R8, R102).
Adding 16 keeps the difference a natural number. -/
def invShiftRows (b : Block) : Block := tabulate fun i => b[(i.val + 16 - 4 * (i.val % 4)) % 16]

/-- One column of InverseMixColumns: the matrix with first row 14, 11, 13, 9 (R103). -/
def invMixColumn (t : Tables) (c0 c1 c2 c3 : Byte) : Word4 :=
  #v[t.MUL14 c0 ^^^ t.MUL11 c1 ^^^ t.MUL13 c2 ^^^ t.MUL9 c3,
     t.MUL9 c0 ^^^ t.MUL14 c1 ^^^ t.MUL11 c2 ^^^ t.MUL13 c3,
     t.MUL13 c0 ^^^ t.MUL9 c1 ^^^ t.MUL14 c2 ^^^ t.MUL11 c3,
     t.MUL11 c0 ^^^ t.MUL13 c1 ^^^ t.MUL9 c2 ^^^ t.MUL14 c3]

/-- InverseMixColumns on a 16-byte string (R103). -/
def invMixColumns (t : Tables) (b : Block) : Block := mapColumns (invMixColumn t) b

/-- ISB with the tables of `c` (R101). -/
def isbWith (c : Config) (s : State) : Host.Outcome State Fault Refusal :=
  .next { s with ST := invSubBytes c.tables s.ST }

/-- IMC with the tables of `c` (R103). -/
def imcWith (c : Config) (s : State) : Host.Outcome State Fault Refusal :=
  .next { s with ST := invMixColumns c.tables s.ST }

/-- ISB (R101). -/
def execIsb (s : State) : Host.Outcome State Fault Refusal := isbWith engine s

/-- ISR (R102). -/
def execIsr (s : State) : Host.Outcome State Fault Refusal := .next { s with ST := invShiftRows s.ST }

/-- IMC (R103). -/
def execImc (s : State) : Host.Outcome State Fault Refusal := imcWith engine s

/-- One inverse round of `Decrypt`, with round key r (R106). -/
def inverseRound (t : Tables) (xk : KeyStore) (s : Block) (r : Fin 11) : Block :=
  invSubBytes t (invShiftRows (invMixColumns t (xorBytes s (roundKey xk r))))

/-- The function `Decrypt(block, xk)` (R106). -/
def decrypt (t : Tables) (block : Block) (xk : KeyStore) : Block :=
  let s := invSubBytes t (invShiftRows (xorBytes block (roundKey xk 10)))
  let s := [9, 8, 7, 6, 5, 4, 3, 2, 1].foldl (inverseRound t xk) s
  xorBytes s (roundKey xk 0)

end Sys2Proof.Machine
end

