-- ==== Sys2Proof/Machine/KeySchedule.lean ====
section
/-! DEFINITION. The key scheduler (41_key_scheduler.md): KROT, KSUB, KRC, KXR and the function `Expand`. -/

namespace Sys2Proof.Machine

/-- `RotWord(w) = [w[1], w[2], w[3], w[0]]` (R80). -/
def rotWord (w : Word4) : Word4 := #v[w[1], w[2], w[3], w[0]]

/-- `SubWord(w)`: each byte through the forward S-box (R81). -/
def subWord (t : Tables) (w : Word4) : Word4 := tabulate fun i => t.SBOX w[i]

/-- The word with the round constant of round r xored into its byte 0 (R82, R85). -/
def xorRoundConstant (t : Tables) (r : Round) (w : Word4) : Word4 := #v[w[0] ^^^ t.RCON r, w[1], w[2], w[3]]

/-- The word chain of KXR: round key r from `TW` and round key r-1, four word writes in this order, each seeing those
before it (R86). -/
def chainWords (tw : Word4) (r : Round) (xk : KeyStore) : KeyStore :=
  let xk1 := writeKeyWord xk r.index 0 (xorBytes tw (keyWord xk r.before 0))
  let xk2 := writeKeyWord xk1 r.index 1 (xorBytes (keyWord xk1 r.before 1) (keyWord xk1 r.index 0))
  let xk3 := writeKeyWord xk2 r.index 2 (xorBytes (keyWord xk2 r.before 2) (keyWord xk2 r.index 1))
  writeKeyWord xk3 r.index 3 (xorBytes (keyWord xk3 r.before 3) (keyWord xk3 r.index 2))

/-- KSUB with the tables of `c` (R84). -/
def ksubWith (c : Config) (s : State) : Host.Outcome State Fault Refusal :=
  .next { s with TW := subWord c.tables s.TW }

/-- KRC r with the tables of `c` (R85). -/
def krcWith (c : Config) (r : Round) (s : State) : Host.Outcome State Fault Refusal :=
  .next { s with TW := xorRoundConstant c.tables r s.TW }

/-- KROT r (R83). -/
def execKrot (r : Round) (s : State) : Host.Outcome State Fault Refusal :=
  .next { s with TW := rotWord (keyWord s.XK r.before 3) }

/-- KSUB (R84). -/
def execKsub (s : State) : Host.Outcome State Fault Refusal := ksubWith engine s

/-- KRC r (R85). -/
def execKrc (r : Round) (s : State) : Host.Outcome State Fault Refusal := krcWith engine r s

/-- KXR r (R86). -/
def execKxr (r : Round) (s : State) : Host.Outcome State Fault Refusal :=
  .next { s with XK := chainWords s.TW r s.XK }

/-- The value of `TW` that KROT, KSUB and KRC of round r make from round key r-1 (R88, `t`). -/
def scheduleWord (t : Tables) (r : Round) (previous : Block) : Word4 :=
  xorRoundConstant t r (subWord t (rotWord (blockWord previous 3)))

/-- The round key whose words 0 to 3 are these (R15, R35). -/
def ofWords (w0 w1 w2 w3 : Word4) : Block :=
  tabulate fun i => (#v[w0, w1, w2, w3])[i.val / 4][i.val % 4]

/-- Round key r from round key r-1 (R88). -/
def nextRoundKey (t : Tables) (r : Round) (previous : Block) : Block :=
  let w0 := xorBytes (scheduleWord t r previous) (blockWord previous 0)
  let w1 := xorBytes (blockWord previous 1) w0
  let w2 := xorBytes (blockWord previous 2) w1
  let w3 := xorBytes (blockWord previous 3) w2
  ofWords w0 w1 w2 w3

/-- Round key n of a key: round key 0 is the key itself (R88). -/
def expandedRoundKey (t : Tables) (key : Block) : (n : Nat) → n < 11 → Block
  | 0, _ => key
  | n + 1, h => nextRoundKey t ⟨⟨n, by omega⟩⟩ (expandedRoundKey t key n (by omega))

/-- The function `Expand` on 16-byte strings (R88). -/
def expand (t : Tables) (key : Block) : KeyStore :=
  tabulate fun i => (expandedRoundKey t key (i.val / 16) (by omega))[i.val % 16]

end Sys2Proof.Machine
end

