-- ==== Sys2Proof/Machine/Sequencer.lean ====
section
/-! DEFINITION. The schedule ROM and the sequencer (30_encoding.md R54, R55, R59). -/

namespace Sys2Proof.Machine

/-- The schedule `KS` as a flat byte string (R54). -/
def wordsKS : Nat := 0x8190A1B18290A2B28390A3B38490A4B48590A5B58690A6B68790A7B78890A8B88990A9B98A90AABA

/-- The schedule `ENC` as a flat byte string (R54). -/
def wordsENC : Nat := 0x1020304011203040122030401320304014203040152030401620304017203040182030401920301A

/-- The schedule `DEC` as a flat byte string (R54). -/
def wordsDEC : Nat := 0x1A605019706050187060501770605016706050157060501470605013706050127060501170605010

/-- A read of the schedule ROM: word `u` of a schedule (R20, R28). -/
def romWord (sched : Schedule) (u : Nat) : Byte :=
  match sched with
  | .KS => hexByte 40 wordsKS u
  | .ENC => hexByte 40 wordsENC u
  | .DEC => hexByte 40 wordsDEC u

/-- The pseudo-operation `ROUND r` (R59). -/
def pseudoROUND (r : Fin 11) : List Instr := [.sb, .sr, .mc, .ark r]

/-- The pseudo-operation `FINAL` (R59). -/
def pseudoFINAL : List Instr := [.sb, .sr, .ark 10]

/-- The pseudo-operation `IFIRST` (R59). -/
def pseudoIFIRST : List Instr := [.ark 10, .isr, .isb]

/-- The pseudo-operation `IROUND r` (R59). -/
def pseudoIROUND (r : Fin 11) : List Instr := [.ark r, .imc, .isr, .isb]

/-- The pseudo-operation `KROUND r` (R59). -/
def pseudoKROUND (r : Round) : List Instr := [.krot r, .ksub, .krc r, .kxr r]

/-- What the sequencer does with one micro-operation, on an engine with parameters `c`: the meaning of each (R52). A
command stands in no schedule. -/
def execMicro (c : Config) (i : Instr) (s : State) : Host.Outcome State Fault Refusal :=
  match i with
  | .ark r => execArk r s
  | .sb => sbWith c s
  | .sr => execSr s
  | .mc => mcWith c s
  | .isb => isbWith c s
  | .isr => execIsr s
  | .imc => imcWith c s
  | .krot r => execKrot r s
  | .ksub => ksubWith c s
  | .krc r => krcWith c r s
  | .kxr r => execKxr r s
  | .expand _ => .fault .reservedWord
  | .encb _ => .fault .reservedWord
  | .decb _ => .fault .reservedWord
  | .encm _ _ => .fault .reservedWord
  | .decm _ _ _ => .fault .reservedWord

/-- The first line of `run(S)`: `UPC <- 0` (R55). -/
def seqStart (sched : Schedule) (s : State) : State := { s with UPC := 0, RUN := some sched }

/-- The last line of `run(S)`: `UPC <- 0`, and the sequencer is idle (R55). -/
def seqEnd (s : State) : State := { s with UPC := 0, RUN := none }

/-- One turn of the loop of `run(S)`: while `UPC < 40`, execute the micro-operation `S[UPC]` by its rule, then
`UPC <- UPC + 1`; at 40 the loop ends (R55). `ex` is what executes a decoded word. -/
def seqStep (ex : Instr → State → Host.Outcome State Fault Refusal) (sched : Schedule) (s : State) :
    Host.Outcome State Fault Refusal :=
  if h : s.UPC.val < 40 then
    match decodeUop (romWord sched s.UPC.val) with
    | .ok i => andThen (ex i s) fun t => .next { t with UPC := ⟨s.UPC.val + 1, by omega⟩ }
    | .error _ => .fault .reservedWord
  else
    .next (seqEnd s)

/-- `n` turns of the loop of `run(S)`. -/
def seqSteps (ex : Instr → State → Host.Outcome State Fault Refusal) (sched : Schedule) :
    Nat → State → Host.Outcome State Fault Refusal
  | 0, s => .next s
  | n + 1, s => andThen (seqStep ex sched s) (seqSteps ex sched n)

/-- `run(S)`: 40 micro-operations and the end of the loop (R55). -/
def run (c : Config) (sched : Schedule) (s : State) : Host.Outcome State Fault Refusal :=
  seqSteps (execMicro c) sched 41 (seqStart sched s)

/-- Every position of the schedule ROM, `KS` first. -/
def romPositions : List (Schedule × Fin 41) :=
  [Schedule.KS, Schedule.ENC, Schedule.DEC].flatMap fun sched =>
    (List.finRange 40).map fun u => (sched, u.castSucc)

/-- The first position of the schedule ROM that holds the word `u`. -/
def romFind (u : Byte) : Option (Schedule × Fin 41) :=
  romPositions.find? fun p => romWord p.1 p.2.val == u

end Sys2Proof.Machine
end

