-- ==== Sys2Proof/Machine/Driver.lean ====
section
/-! DEFINITION. The five commands: EXPAND (41_key_scheduler.md R89), ENCB (42_forward_transform.md R99), DECB
(43_inverse_transform.md R107), ENCM and DECM (44_block_driver.md R114, R115), and the functions `EncryptMessage` and
`DecryptMessage` (R111, R112). A command is one atomic step (20_memory.md R39). -/

namespace Sys2Proof.Machine

/-- Expand a key once: the key load, `run(KS)`, `KVALID <- 1` (R89 steps 2 to 4, R114 step 2, R115 step 3). -/
def expandKey (c : Config) (key : Block) (s : State) : Host.Outcome State Fault Refusal :=
  andThen (run c .KS (loadKey key s)) fun t => .next (setKeyValid t)

/-- Transform one chunk or block in `ST`: the block load and the schedule (R99 steps 3 and 4, R107, R114 step 4). -/
def transformBlock (c : Config) (sched : Schedule) (block : Block) (s : State) : Host.Outcome State Fault Refusal :=
  run c sched (loadBlock block s)

/-- The chunk loop of ENCM and DECM over the chunk numbers in the list, with the output so far (R114 step 4, R115
step 5). -/
def transformChunks (c : Config) (sched : Schedule) (p : List Byte) :
    List (Fin (chunkCount p)) → List Byte → State → Host.Outcome (List Byte × State) Fault Refusal
  | [], out, s => .next (out, s)
  | k :: ks, out, s =>
    andThen (transformBlock c sched (chunk p k) s) fun t => transformChunks c sched p ks (out ++ t.ST.toList) t

/-- EXPAND on an engine with parameters `c` (R89). -/
def expandWith (c : Config) (key : List Byte) (s : State) : Host.Outcome State Fault Refusal :=
  match block16 key with
  | none => raise .invalidKeyLength s
  | some k => andThen (expandKey c k s) fun t => .next (respond .ok t.XK.toList t)

/-- The single-block commands ENCB and DECB, which differ in their schedule (R99, R107). -/
def blockWith (c : Config) (sched : Schedule) (block : List Byte) (s : State) : Host.Outcome State Fault Refusal :=
  match block16 block with
  | none => raise .invalidBlockAlignment s
  | some b =>
    if keyValid s then
      andThen (transformBlock c sched b s) fun t => .next (respond .ok t.ST.toList t)
    else
      raise .keyNotExpanded s

/-- ENCM on an engine with parameters `c` (R113, R114). -/
def encmWith (c : Config) (key msg : List Byte) (s : State) : Host.Outcome State Fault Refusal :=
  if c.admits msg.length then
    match block16 key with
    | none => raise .invalidKeyLength s
    | some k =>
      andThen (expandKey c k s) fun t =>
        andThen (transformChunks c .ENC (pad msg) (List.finRange _) [] t) fun (out, u) =>
          .next (respond .ok out u)
  else
    .refused .messageTooLong

/-- DECM on an engine with parameters `c` (R113, R115). -/
def decmWith (c : Config) (key ct : List Byte) (outlen : Nat) (s : State) : Host.Outcome State Fault Refusal :=
  if c.admits ct.length then
    match block16 key with
    | none => raise .invalidKeyLength s
    | some k =>
      if outlen > (pad ct).length then
        raise .invalidOutputLength s
      else
        andThen (expandKey c k s) fun t =>
          andThen (transformChunks c .DEC (pad ct) (List.finRange _) [] t) fun (out, u) =>
            .next (respond .ok (out.take outlen) u)
  else
    .refused .messageTooLong

/-- EXPAND (R89). -/
def execExpand (key : List Byte) (s : State) : Host.Outcome State Fault Refusal := expandWith engine key s

/-- ENCB (R99). -/
def execEncb (block : List Byte) (s : State) : Host.Outcome State Fault Refusal := blockWith engine .ENC block s

/-- DECB (R107). -/
def execDecb (block : List Byte) (s : State) : Host.Outcome State Fault Refusal := blockWith engine .DEC block s

/-- ENCM (R114). -/
def execEncm (key msg : List Byte) (s : State) : Host.Outcome State Fault Refusal := encmWith engine key msg s

/-- DECM (R115). -/
def execDecm (key ct : List Byte) (outlen : Nat) (s : State) : Host.Outcome State Fault Refusal :=
  decmWith engine key ct outlen s

/-- The function `EncryptMessage` (R111). -/
def encryptMessage (t : Tables) (msg : List Byte) (key : Block) : List Byte :=
  (List.finRange (chunkCount (pad msg))).flatMap fun k => (encrypt t (chunk (pad msg) k) (expand t key)).toList

/-- The function `DecryptMessage`, for `outlen <= len(PAD(ct))` (R112). -/
def decryptMessage (t : Tables) (ct : List Byte) (key : Block) (outlen : Nat) : List Byte :=
  ((List.finRange (chunkCount (pad ct))).flatMap fun k =>
    (decrypt t (chunk (pad ct) k) (expand t key)).toList).take outlen

end Sys2Proof.Machine
end

