-- ==== Sys2Proof/Machine/Dispatch.lean ====
section
/-! DEFINITION. The meaning of every instruction: one arm per constructor of `Instr`. -/

namespace Sys2Proof.Machine

def exec (i : Instr) (s : State) : Host.Outcome State Fault Refusal :=
  match i with
  -- The commands of the host (30_encoding.md R47)
  | .expand key => Sys2Proof.Machine.execExpand key s
  | .encb block => Sys2Proof.Machine.execEncb block s
  | .decb block => Sys2Proof.Machine.execDecb block s
  | .encm key msg => Sys2Proof.Machine.execEncm key msg s
  | .decm key ct outlen => Sys2Proof.Machine.execDecm key ct outlen s
  -- The micro-operations of the sequencer (30_encoding.md R52)
  | .ark r => Sys2Proof.Machine.execArk r s
  | .sb => Sys2Proof.Machine.execSb s
  | .sr => Sys2Proof.Machine.execSr s
  | .mc => Sys2Proof.Machine.execMc s
  | .isb => Sys2Proof.Machine.execIsb s
  | .isr => Sys2Proof.Machine.execIsr s
  | .imc => Sys2Proof.Machine.execImc s
  | .krot r => Sys2Proof.Machine.execKrot r s
  | .ksub => Sys2Proof.Machine.execKsub s
  | .krc r => Sys2Proof.Machine.execKrc r s
  | .kxr r => Sys2Proof.Machine.execKxr r s

end Sys2Proof.Machine
end

