-- ==== Sys2Proof/Machine/HostPort.lean ====
section
/-! DEFINITION. The host port: how an idle engine takes the host's next event (20_memory.md R39, R41; 30_encoding.md R56,
R60; 70_reset_and_hazards.md R141), and where an instruction word stands for the next step to run it. -/

namespace Sys2Proof.Machine

/-- Take one command: decode it and execute it with `ex`, or raise IllegalCommand (R56, R127). A command with the wrong
operands for its opcode has no meaning (R48). -/
def takeCommand (ex : Instr → State → Host.Outcome State Fault Refusal) (c : Command) (s : State) :
    Host.Outcome State Fault Refusal :=
  match decodeCommand c with
  | .ok i => ex i s
  | .error .illegalCommand => raise .illegalCommand s
  | .error .malformedOperands => .refused .malformedCommand

/-- An idle engine takes the oldest event the host has issued, and waits where there is none (R41, R141). -/
def takeEvent (ex : Instr → State → Host.Outcome State Fault Refusal) (s : State) : Host.Outcome State Fault Refusal :=
  match s.pending with
  | [] => .next s
  | .command c :: rest => takeCommand ex c { s with pending := rest }
  | .reset :: rest => .next (resetEvent { s with pending := rest })

/-- The state in which the next step runs the instruction word `u`: a micro-operation word is fetched from the schedule
ROM, so the sequencer is set to a position that holds it; any other byte is the opcode of a command that the host has
issued, before anything else, with zero operands. Log entry 7. -/
def placeWord (u : Byte) (s : State) : State :=
  match romFind u with
  | some p => { s with RUN := some p.1, UPC := p.2 }
  | none => { s with RUN := none, UPC := 0, pending := .command ⟨u, zeroOperands u⟩ :: s.pending }

end Sys2Proof.Machine
end

