-- ==== Sys2Proof/Machine/Step.lean ====
section
/-! DEFINITION. One step of the engine: inside a schedule, one turn of the sequencer; between commands, one event of the
host. -/

namespace Sys2Proof.Machine

/-- One step. Between commands it takes the host's next event, a command being one atomic step (R39); where the
sequencer stands inside a schedule it executes one micro-operation, "atomic to the sequencer" (R39, R55). -/
def step (s : State) : Host.Outcome State Fault Refusal :=
  match s.RUN with
  | some sched => seqStep exec sched s
  | none => takeEvent exec s

/-- `s` with the table word `w` of `nbits` bits standing where `step` takes its next instruction. -/
def State.withFetchWord (s : State) (nbits w : Nat) : State := placeWord (tableByte nbits w) s

end Sys2Proof.Machine
end

