-- ==== Sys2Proof/Safety.lean ====
section
/-! DEFINITION. The terms the statements are written in: what holds between commands, what a command leaves, and what the
host can tell apart. -/

namespace Sys2Proof.Machine

/-- `n` steps, to the first stop: the run of the host's interface (Host/Core.lean) over the fixed names. -/
def stepN : Nat → State → Host.Outcome State Fault Refusal
  | 0, s => .next s
  | n + 1, s => andThen (step s) (stepN n)

/-- The byte `XK[a]`, for an address of the store (R30). -/
def xkByte (xk : KeyStore) (a : Nat) : Byte := (xk[a]?).getD 0

/-- Between commands: no schedule runs and `UPC = 0` (R18, R23 (b)). -/
def Idle (s : State) : Prop := s.RUN = none ∧ s.UPC = 0

/-- Where `KVALID = 1`, `XK` is the expansion of the key it holds as round key 0 (R23 (a)). -/
def KeyStoreExpanded (s : State) : Prop :=
  s.KVALID = true → s.XK = expand standardTables (roundKey s.XK 0)

/-- The invariants of R23 that hold between commands. -/
def Inv (s : State) : Prop := Idle s ∧ KeyStoreExpanded s

/-- `UPC` is 0 whenever no schedule runs (R18). -/
def SequencerConsistent (s : State) : Prop := s.RUN = none → s.UPC = 0

/-- The command ends with an error: its status, empty data, and no other change (R126). -/
def rejected (e : Status) (s : State) : Host.Outcome State Fault Refusal :=
  .next { s with responses := s.responses ++ [⟨e, []⟩] }

/-- The error a command reports: the first of its own checks, in this order, that fails (R128). -/
def firstError (s : State) : Instr → Option Status
  | .expand key | .encm key _ => if key.length = 16 then none else some .invalidKeyLength
  | .encb block | .decb block =>
    if block.length = 16 then
      if s.KVALID then none else some .keyNotExpanded
    else some .invalidBlockAlignment
  | .decm key ct outlen =>
    if key.length = 16 then
      if outlen ≤ (pad ct).length then none else some .invalidOutputLength
    else some .invalidKeyLength
  | .ark _ | .sb | .sr | .mc | .isb | .isr | .imc | .krot _ | .ksub | .krc _ | .kxr _ => none

/-- The state after a key expansion: `XK = Expand(key)`, `KVALID = 1`, `TW` the last word of the schedule, and the
sequencer idle (R87 to R89, R120). -/
def keyed (key : Block) (s : State) : State :=
  { s with
    XK := expand standardTables key
    TW := scheduleWord standardTables ⟨9⟩ (roundKey (expand standardTables key) 9)
    KVALID := true
    UPC := 0
    RUN := none }

/-- `ST` after a chunk loop: the output of the last chunk, and the value before where there is no chunk (R25, R114). -/
def lastOutput (f : Block → Block) (p : List Byte) (st : Block) : Block :=
  match (List.finRange (chunkCount p)).getLast? with
  | none => st
  | some k => f (chunk p k)

/-- The key operand of the key-expanding commands (R16). -/
def keyOperand : Instr → Option (List Byte)
  | .expand key => some key
  | .encm key _ => some key
  | .decm key _ _ => some key
  | .encb _ | .decb _ => none
  | .ark _ | .sb | .sr | .mc | .isb | .isr | .imc | .krot _ | .ksub | .krc _ | .kxr _ => none

/-- The host cannot tell the two states apart: both are between commands, with one history of responses, the same events to come
and the same `KVALID`, and the same `XK` where `KVALID = 1` (R22, R135). `ST`, `TW`, and `XK` where `KVALID = 0`, are
free to differ. -/
def HostAlike (s t : State) : Prop :=
  s.RUN = none ∧ t.RUN = none ∧ s.pending = t.pending ∧ s.responses = t.responses ∧ s.KVALID = t.KVALID ∧
    (s.KVALID = true → s.XK = t.XK)

/-- Two outcomes are alike: both stop for one reason, or both go on to states the host cannot tell apart. -/
def AlikeOutcomes : Host.Outcome State Fault Refusal → Host.Outcome State Fault Refusal → Prop
  | .next s, .next t => HostAlike s t
  | .fault a, .fault b => a = b
  | .refused a, .refused b => a = b
  | _, _ => False

/-- Tables for which the transforms undo each other: mutually inverse substitutions, and multiplication tables that are
the field products (R65, R70, 93_implementation_defined.md U14). -/
structure LawfulTables (t : Tables) : Prop where
  inv_sub : ∀ b, t.INVSBOX (t.SBOX b) = b
  sub_inv : ∀ b, t.SBOX (t.INVSBOX b) = b
  mul2 : ∀ b, t.MUL2 b = gmul b 2
  mul3 : ∀ b, t.MUL3 b = gmul b 3
  mul9 : ∀ b, t.MUL9 b = gmul b 9
  mul11 : ∀ b, t.MUL11 b = gmul b 11
  mul13 : ∀ b, t.MUL13 b = gmul b 13
  mul14 : ∀ b, t.MUL14 b = gmul b 14

end Sys2Proof.Machine
end

