-- ==== Sys2Proof/WellFormed.lean ====
section
/-! DEFINITION. Which instructions are in the domain of an engine with parameters `c`: the bound `MAXLEN` on the two
message operands (44_block_driver.md R113). Every other operand has any length (30_encoding.md R48): a key or a block
of the wrong length is a command that responds with an error, not an ill-formed one. The round indices of R53 are in
the types of `Instr`. -/

namespace Sys2Proof

/-- The instruction is admitted by an engine with the parameters `c` (R48, R113). -/
def Instr.wellFormed (c : Config) : Instr → Bool
  | .expand _ => true
  | .encb _ => true
  | .decb _ => true
  | .encm _ msg => c.admits msg.length
  | .decm _ ct _ => c.admits ct.length
  | .ark _ => true
  | .sb => true
  | .sr => true
  | .mc => true
  | .isb => true
  | .isr => true
  | .imc => true
  | .krot _ => true
  | .ksub => true
  | .krc _ => true
  | .kxr _ => true

end Sys2Proof
end

