-- ==== Sys2Proof/Certificates/Slice0/Obligations.lean ====
section
/-! DEFINITION. The statements for the provers. Each says in its docstring which rule of the spec it formalises. -/

open Sys2Proof Sys2Proof.Machine

/-! ### Encoding -/

/-- R51, R52, R46, R47: the word of every instruction decodes to that instruction, with every operand. -/
def Obligations.EncodedInstructionsDecodeBack : Prop :=
  ∀ i : Instr,
    (i.isMicro = true → (encode i).operands = [] ∧ decodeUop (encode i).op = .ok i) ∧
    (i.isMicro = false → decodeCommand (encode i) = .ok i)

/-- R57, R60: a word that decodes is the one word of its instruction. -/
def Obligations.DecodedWordsAreTheEncodings : Prop :=
  (∀ u i, decodeUop u = .ok i → i.isMicro = true ∧ encode i = ⟨u, []⟩) ∧
  (∀ c i, decodeCommand c = .ok i → i.isMicro = false ∧ encode i = c)

/-- R53: which micro-operation bytes are legal, by their code and r field; every other byte is reserved, and every word
of the schedule ROM is legal. -/
def Obligations.LegalMicroOperationBytes : Prop :=
  (∀ u : Byte,
    let code := u.toNat / 16
    let r := u.toNat % 16
    let legal := (code = 0x1 ∧ r ≤ 10) ∨ (code ∈ [0x8, 0xA, 0xB] ∧ 1 ≤ r ∧ r ≤ 10) ∨
      (code ∈ [0x2, 0x3, 0x4, 0x5, 0x6, 0x7, 0x9] ∧ r = 0)
    (legal → ∃ i, decodeUop u = .ok i) ∧ (¬ legal → decodeUop u = .error .reservedWord)) ∧
  (∀ (sched : Schedule) (u : Fin 40), ∃ i, decodeUop (romWord sched u.val) = .ok i)

/-- Words written out from R47, R51 and R52, and bytes that R53 reserves (95_test_vectors.md V12). -/
def Obligations.WrittenWordsDecode : Prop :=
  decodeUop 0x1A = .ok (.ark 10) ∧ decodeUop 0x20 = .ok .sb ∧ decodeUop 0x70 = .ok .imc ∧
  decodeUop 0x81 = .ok (.krot ⟨0⟩) ∧ decodeUop 0x90 = .ok .ksub ∧ decodeUop 0xA9 = .ok (.krc ⟨8⟩) ∧
  decodeUop 0xBA = .ok (.kxr ⟨9⟩) ∧
  decodeUop 0x1B = .error .reservedWord ∧ decodeUop 0x80 = .error .reservedWord ∧
  decodeUop 0x21 = .error .reservedWord ∧ decodeUop 0xC0 = .error .reservedWord ∧
  decodeCommand ⟨0x05, [.bytes [1], .bytes [2, 3], .number 4]⟩ = .ok (.decm [1] [2, 3] 4) ∧
  decodeCommand ⟨0x06, []⟩ = .error .illegalCommand

/-- R59: the three schedules are the expansions of their pseudo-operations. -/
def Obligations.SchedulesExpandTheirPseudoOperations : Prop :=
  let words (sched : Schedule) := (List.range 40).map fun u => decodeUop (romWord sched u)
  words .ENC = ([Instr.ark 0] ++ [1, 2, 3, 4, 5, 6, 7, 8, 9].flatMap pseudoROUND ++ pseudoFINAL).map .ok ∧
  words .DEC = (pseudoIFIRST ++ [9, 8, 7, 6, 5, 4, 3, 2, 1].flatMap pseudoIROUND ++ [Instr.ark 0]).map .ok ∧
  words .KS = ((List.finRange 10).flatMap fun r => pseudoKROUND ⟨r⟩).map .ok

/-! ### Tables -/

/-- 40_gf_tables.md section 1: field multiplication is commutative, associative and distributes over exclusive-or, with
one 0x01 and zero 0x00. -/
def Obligations.FieldMultiplicationLaws : Prop :=
  ∀ a b c : Byte,
    gmul a b = gmul b a ∧ gmul (gmul a b) c = gmul a (gmul b c) ∧
    gmul (a ^^^ b) c = gmul a c ^^^ gmul b c ∧ gmul a 0x01 = a ∧ gmul a 0x00 = 0x00

/-- R65: each multiplication table holds the field products by its constant, and the doubling formulas hold. -/
def Obligations.MultiplicationTablesAreFieldProducts : Prop :=
  ∀ b : Byte,
    let t := standardTables
    let x2 := xtime b
    let x4 := xtime x2
    let x8 := xtime x4
    (t.MUL2 b = gmul b 2 ∧ t.MUL3 b = gmul b 3 ∧ t.MUL9 b = gmul b 9 ∧ t.MUL11 b = gmul b 11 ∧
      t.MUL13 b = gmul b 13 ∧ t.MUL14 b = gmul b 14) ∧
    (t.MUL2 b = x2 ∧ t.MUL3 b = x2 ^^^ b ∧ t.MUL9 b = x8 ^^^ b ∧ t.MUL11 b = x8 ^^^ x2 ^^^ b ∧
      t.MUL13 b = x8 ^^^ x4 ^^^ b ∧ t.MUL14 b = x8 ^^^ x4 ^^^ x2)

/-- 40_gf_tables.md section 3: every byte but 0 has exactly one inverse, and `SBOX` is the affine transform of it (the
construction is the spec's general knowledge G1). -/
def Obligations.SubstitutionTableIsItsConstruction : Prop :=
  inv 0 = 0 ∧
  ∀ b : Byte,
    (b ≠ 0 → gmul b (inv b) = 1 ∧ ∀ y, gmul b y = 1 → y = inv b) ∧
    standardTables.SBOX b = affine (inv b)

/-- 40_gf_tables.md section 6, facts (a) to (f). -/
def Obligations.TableFacts : Prop :=
  let t := standardTables
  let muls := [(t.MUL2, (2 : Byte)), (t.MUL3, 3), (t.MUL9, 9), (t.MUL11, 11), (t.MUL13, 13), (t.MUL14, 14)]
  (∀ b, t.INVSBOX (t.SBOX b) = b ∧ t.SBOX (t.INVSBOX b) = b) ∧
  (∀ b, t.SBOX b ≠ b ∧ t.SBOX b ≠ b ^^^ 0xFF) ∧
  (∀ m ∈ muls, m.1 0x00 = 0x00 ∧ m.1 0x01 = m.2 ∧ ∀ a b, m.1 (a ^^^ b) = m.1 a ^^^ m.1 b) ∧
  (∀ m ∈ muls, Function.Bijective m.1) ∧
  (∀ b, t.MUL3 b = t.MUL2 b ^^^ b ∧ t.MUL9 b ^^^ t.MUL11 b ^^^ t.MUL13 b ^^^ t.MUL14 b = b ∧
    t.MUL2 b ^^^ t.MUL3 b = b) ∧
  gmul 14 2 ^^^ gmul 11 1 ^^^ gmul 13 1 ^^^ gmul 9 3 = 1 ∧
  gmul 14 3 ^^^ gmul 11 2 ^^^ gmul 13 1 ^^^ gmul 9 1 = 0 ∧
  gmul 14 1 ^^^ gmul 11 3 ^^^ gmul 13 2 ^^^ gmul 9 1 = 0 ∧
  gmul 14 1 ^^^ gmul 11 1 ^^^ gmul 13 3 ^^^ gmul 9 2 = 0

/-- R77: `RCON[1] = 0x01`, each next constant is the double of the one before, and the ten values. -/
def Obligations.RoundConstantsDouble : Prop :=
  standardTables.RCON ⟨0⟩ = 0x01 ∧
  (∀ r : Fin 9, standardTables.RCON ⟨r.succ⟩ = xtime (standardTables.RCON ⟨r.castSucc⟩)) ∧
  (List.finRange 10).map (fun r => standardTables.RCON ⟨r⟩) =
    [0x01, 0x02, 0x04, 0x08, 0x10, 0x20, 0x40, 0x80, 0x1B, 0x36]

/-! ### Micro-operations: results and frames -/

/-- R83: KROT r rotates the last word of round key r-1 into `TW` and changes nothing else. -/
def Obligations.KrotRotatesTheLastWord : Prop :=
  ∀ (r : Round) (s : State),
    let a := 16 * (r.toNat - 1) + 12
    decodeUop (0x80 + BitVec.ofNat 8 r.toNat) = .ok (.krot r) ∧
    ∃ t, exec (.krot r) s = .next t ∧ t = { s with TW := t.TW } ∧
      t.TW = #v[xkByte s.XK (a + 1), xkByte s.XK (a + 2), xkByte s.XK (a + 3), xkByte s.XK a]

/-- R84: KSUB substitutes each byte of `TW` and changes nothing else. -/
def Obligations.KsubSubstitutesTheTemporaryWord : Prop :=
  decodeUop 0x90 = .ok .ksub ∧
  ∀ s : State, ∃ t, exec .ksub s = .next t ∧ t = { s with TW := t.TW } ∧
    ∀ i : Fin 4, t.TW[i] = standardTables.SBOX s.TW[i]

/-- R85: KRC r exclusive-ors the round constant into `TW[0]` and changes nothing else. -/
def Obligations.KrcAddsTheRoundConstant : Prop :=
  ∀ (r : Round) (s : State), decodeUop (0xA0 + BitVec.ofNat 8 r.toNat) = .ok (.krc r) ∧
    ∃ t, exec (.krc r) s = .next t ∧ t = { s with TW := t.TW } ∧
    t.TW[0] = s.TW[0] ^^^ standardTables.RCON r ∧ ∀ i : Fin 4, i ≠ 0 → t.TW[i] = s.TW[i]

/-- R86: KXR r writes the sixteen bytes of round key r, each from the byte of round key r-1 and from `TW` or the byte four
before it, and changes nothing else. -/
def Obligations.KxrChainsTheRoundKey : Prop :=
  ∀ (r : Round) (s : State), decodeUop (0xB0 + BitVec.ofNat 8 r.toNat) = .ok (.kxr r) ∧
    ∃ t, exec (.kxr r) s = .next t ∧ t = { s with XK := t.XK } ∧
    (∀ i : Nat, i < 16 → xkByte t.XK (16 * r.toNat + i) =
      xkByte s.XK (16 * (r.toNat - 1) + i) ^^^
        (if h : i < 4 then s.TW[i] else xkByte t.XK (16 * r.toNat + i - 4))) ∧
    ∀ a, ¬ (16 * r.toNat ≤ a ∧ a < 16 * r.toNat + 16) → xkByte t.XK a = xkByte s.XK a

/-- R93: ARK r exclusive-ors round key r into `ST` and changes nothing else; twice it restores `ST`. -/
def Obligations.ArkAddsTheRoundKey : Prop :=
  ∀ (r : Fin 11) (s : State), decodeUop (0x10 + BitVec.ofNat 8 r.val) = .ok (.ark r) ∧
    ∃ t, exec (.ark r) s = .next t ∧ t = { s with ST := t.ST } ∧
    (∀ i : Fin 16, t.ST[i] = s.ST[i] ^^^ xkByte s.XK (16 * r.val + i.val)) ∧
    exec (.ark r) t = .next s

/-- R94, R101: SB and ISB substitute each byte of `ST` by itself and change nothing else. -/
def Obligations.SubstitutionsActByteByByte : Prop :=
  decodeUop 0x20 = .ok .sb ∧ decodeUop 0x50 = .ok .isb ∧
  ∀ s : State,
    (∃ t, exec .sb s = .next t ∧ t = { s with ST := t.ST } ∧ ∀ i : Fin 16, t.ST[i] = standardTables.SBOX s.ST[i]) ∧
    (∃ t, exec .isb s = .next t ∧ t = { s with ST := t.ST } ∧ ∀ i : Fin 16, t.ST[i] = standardTables.INVSBOX s.ST[i])

/-- R95, R102: SR rotates row i left by i and ISR rotates it right by i, in the matrix view and as byte permutations;
they change nothing else. -/
def Obligations.RowShiftsRotateTheRows : Prop :=
  let p : Vector (Fin 16) 16 := #v[0, 5, 10, 15, 4, 9, 14, 3, 8, 13, 2, 7, 12, 1, 6, 11]
  let q : Vector (Fin 16) 16 := #v[0, 13, 10, 7, 4, 1, 14, 11, 8, 5, 2, 15, 12, 9, 6, 3]
  decodeUop 0x30 = .ok .sr ∧ decodeUop 0x60 = .ok .isr ∧
  ∀ s : State,
    (∃ t, exec .sr s = .next t ∧ t = { s with ST := t.ST } ∧
      (∀ row col : Fin 4, matrixByte t.ST row col = matrixByte s.ST row (col + row)) ∧
      ∀ i : Fin 16, t.ST[i] = s.ST[p[i]]) ∧
    (∃ t, exec .isr s = .next t ∧ t = { s with ST := t.ST } ∧
      (∀ row col : Fin 4, matrixByte t.ST row col = matrixByte s.ST row (col - row)) ∧
      ∀ i : Fin 16, t.ST[i] = s.ST[q[i]])

/-- R96: MC transforms each column by the MixColumns formula and changes nothing else. -/
def Obligations.McMixesEachColumn : Prop :=
  decodeUop 0x40 = .ok .mc ∧
  ∀ s : State, ∃ t, exec .mc s = .next t ∧ t = { s with ST := t.ST } ∧
    ∀ col : Fin 4,
      let c0 := matrixByte s.ST 0 col
      let c1 := matrixByte s.ST 1 col
      let c2 := matrixByte s.ST 2 col
      let c3 := matrixByte s.ST 3 col
      let m2 := standardTables.MUL2
      let m3 := standardTables.MUL3
      matrixByte t.ST 0 col = m2 c0 ^^^ m3 c1 ^^^ c2 ^^^ c3 ∧
      matrixByte t.ST 1 col = c0 ^^^ m2 c1 ^^^ m3 c2 ^^^ c3 ∧
      matrixByte t.ST 2 col = c0 ^^^ c1 ^^^ m2 c2 ^^^ m3 c3 ∧
      matrixByte t.ST 3 col = m3 c0 ^^^ c1 ^^^ c2 ^^^ m2 c3

/-- R103: IMC transforms each column by the InverseMixColumns formula and changes nothing else. -/
def Obligations.ImcMixesEachColumnInversely : Prop :=
  decodeUop 0x70 = .ok .imc ∧
  ∀ s : State, ∃ t, exec .imc s = .next t ∧ t = { s with ST := t.ST } ∧
    ∀ col : Fin 4,
      let c0 := matrixByte s.ST 0 col
      let c1 := matrixByte s.ST 1 col
      let c2 := matrixByte s.ST 2 col
      let c3 := matrixByte s.ST 3 col
      let m9 := standardTables.MUL9
      let m11 := standardTables.MUL11
      let m13 := standardTables.MUL13
      let m14 := standardTables.MUL14
      matrixByte t.ST 0 col = m14 c0 ^^^ m11 c1 ^^^ m13 c2 ^^^ m9 c3 ∧
      matrixByte t.ST 1 col = m9 c0 ^^^ m14 c1 ^^^ m11 c2 ^^^ m13 c3 ∧
      matrixByte t.ST 2 col = m13 c0 ^^^ m9 c1 ^^^ m14 c2 ^^^ m11 c3 ∧
      matrixByte t.ST 3 col = m11 c0 ^^^ m13 c1 ^^^ m9 c2 ^^^ m14 c3

/-- 42_forward_transform.md section 1 and 43_inverse_transform.md section 1: MC and IMC are products with the circulant
matrices of first row 2, 3, 1, 1 and 14, 11, 13, 9 over the field: entry (i, j) is the constant number j - i mod 4. -/
def Obligations.ColumnTransformsAreMatrixProducts : Prop :=
  let m : Vector Byte 4 := #v[2, 3, 1, 1]
  let n : Vector Byte 4 := #v[14, 11, 13, 9]
  let product (k : Vector Byte 4) (b : Block) (row col : Fin 4) : Byte :=
    (List.finRange 4).foldl (fun acc j => acc ^^^ gmul k[j - row] (matrixByte b j col)) 0
  ∀ s : State,
    (∃ t, exec .mc s = .next t ∧ ∀ row col, matrixByte t.ST row col = product m s.ST row col) ∧
    (∃ t, exec .imc s = .next t ∧ ∀ row col, matrixByte t.ST row col = product n s.ST row col)

/-- 43_inverse_transform.md section 1: ISB, ISR and IMC undo SB, SR and MC and the other way round, and ARK r undoes
itself, from every state. -/
def Obligations.MicroOperationsUndoEachOther : Prop :=
  ∀ s : State,
    (∀ p ∈ [(Instr.sb, Instr.isb), (.sr, .isr), (.mc, .imc)],
      andThen (exec p.1 s) (exec p.2) = .next s ∧ andThen (exec p.2 s) (exec p.1) = .next s) ∧
    ∀ r, andThen (exec (.ark r) s) (exec (.ark r)) = .next s

/-! ### The sequencer -/

/-- R55: inside a schedule a step executes the micro-operation at `UPC` and adds 1 to `UPC`; at 40 the schedule ends and
`UPC` is 0. That the end is a step of its own is the model's choice (log entry 13). -/
def Obligations.StepRunsTheWordAtUpc : Prop :=
  ∀ (s : State) (sched : Schedule), s.RUN = some sched →
    (∀ (i : Instr) (h : s.UPC.val < 40), decodeUop (romWord sched s.UPC.val) = .ok i →
      step s = andThen (exec i s) fun t => .next { t with UPC := ⟨s.UPC.val + 1, by omega⟩ }) ∧
    (s.UPC.val = 40 → step s = .next { s with UPC := 0, RUN := none })

/-- After R149 (every schedule ends): from any place of a schedule the steps left lead to its end, with `UPC` 0, and no
response, flag or event is touched on the way. Two clauses are the model's choice and not R149's: the count `41 - UPC`, in
which the end is a step of its own (log entry 13), and that a schedule stepped alone ends with no response and leaves
`KVALID` (log entry 15). -/
def Obligations.StartedScheduleRunsToItsEnd : Prop :=
  ∀ (s : State) (sched : Schedule), s.RUN = some sched →
    ∃ t, stepN (41 - s.UPC.val) s = .next t ∧ Idle t ∧
      t = { s with ST := t.ST, TW := t.TW, XK := t.XK, UPC := 0, RUN := none }

/-- After R55 and R39: the `run(S)` inside a command is the sequence of single steps of the started schedule. That a
machine step inside a schedule is one micro-operation (log entry 7), and that the end of the schedule is a step of its own,
hence 41 of them (log entry 13), is the model's choice. -/
def Obligations.CommandsRunTheSameSteps : Prop :=
  ∀ (s : State) (sched : Schedule), stepN 41 (seqStart sched s) = run engine sched s

/-! ### Commands. The list of responses and the field `RUN` are the model's (log entries 5, 6 and 14). -/

/-- R60, 20_memory.md R41: between commands a step takes the oldest command the host has issued and executes what it
decodes to, or, where it decodes to nothing, answers as the host port does. The list of events is the model's choice (log
entry 4). -/
def Obligations.StepExecutesTheDecodedCommand : Prop :=
  ∀ (s : State) (c : Command) (rest : List HostEvent), s.RUN = none → s.pending = .command c :: rest →
    (∀ i, decodeCommand c = .ok i → step s = exec i { s with pending := rest }) ∧
    step s = takeCommand exec c { s with pending := rest }

/-- R127: an opcode outside 0x01..0x05 is answered IllegalCommand whatever operands follow, with no other change; and no
other opcode is. -/
def Obligations.IllegalOpcodesAreAnswered : Prop :=
  ∀ (s : State) (op : Byte) (operands : List Operand),
    ((op.toNat = 0 ∨ 6 ≤ op.toNat) → takeCommand exec ⟨op, operands⟩ s = rejected .illegalCommand s) ∧
    (1 ≤ op.toNat → op.toNat ≤ 5 → decodeCommand ⟨op, operands⟩ ≠ .error .illegalCommand)

/-- Log entry 11 (30_encoding.md section 1): a legal opcode with the wrong number or kind of operands is refused. -/
def Obligations.MalformedCommandsAreRefused : Prop :=
  ∀ (s : State) (op : Byte) (operands : List Operand) (rest : List HostEvent),
    s.RUN = none → s.pending = .command ⟨op, operands⟩ :: rest → 1 ≤ op.toNat → op.toNat ≤ 5 →
      (∀ i, encode i ≠ ⟨op, operands⟩) → step s = .refused .malformedCommand

/-- R89: EXPAND with a key of 16 bytes leaves `XK = Expand(key)` and `KVALID = 1` and responds with the 176 bytes; with
any other length it is InvalidKeyLength and changes nothing. -/
def Obligations.ExpandCommand : Prop :=
  (∀ key, decodeCommand ⟨0x01, [.bytes key]⟩ = .ok (.expand key)) ∧
  ∀ s : State,
    (∀ key : Block, exec (.expand key.toList) s =
      .next { keyed key s with responses := s.responses ++ [⟨.ok, (expand standardTables key).toList⟩] }) ∧
    ∀ key : List Byte, key.length ≠ 16 → exec (.expand key) s = rejected .invalidKeyLength s

/-- R99: ENCB. -/
def Obligations.EncbCommand : Prop :=
  (∀ b, decodeCommand ⟨0x02, [.bytes b]⟩ = .ok (.encb b)) ∧
  ∀ s : State,
    (∀ b : Block, s.KVALID = true → exec (.encb b.toList) s =
      .next { s with
        ST := encrypt standardTables b s.XK
        UPC := 0
        RUN := none
        responses := s.responses ++ [⟨.ok, (encrypt standardTables b s.XK).toList⟩] }) ∧
    (∀ b : Block, s.KVALID = false → exec (.encb b.toList) s = rejected .keyNotExpanded s) ∧
    ∀ b : List Byte, b.length ≠ 16 → exec (.encb b) s = rejected .invalidBlockAlignment s

/-- R107: DECB. -/
def Obligations.DecbCommand : Prop :=
  (∀ b, decodeCommand ⟨0x03, [.bytes b]⟩ = .ok (.decb b)) ∧
  ∀ s : State,
    (∀ b : Block, s.KVALID = true → exec (.decb b.toList) s =
      .next { s with
        ST := decrypt standardTables b s.XK
        UPC := 0
        RUN := none
        responses := s.responses ++ [⟨.ok, (decrypt standardTables b s.XK).toList⟩] }) ∧
    (∀ b : Block, s.KVALID = false → exec (.decb b.toList) s = rejected .keyNotExpanded s) ∧
    ∀ b : List Byte, b.length ≠ 16 → exec (.decb b) s = rejected .invalidBlockAlignment s

/-- R114: ENCM. That `ST` is left with the last chunk's output rests on there being one lane, which works through the
chunks in order (R43, log entry 9). -/
def Obligations.EncmCommand : Prop :=
  ∀ (s : State) (msg : List Byte),
    (∀ key, decodeCommand ⟨0x04, [.bytes key, .bytes msg]⟩ = .ok (.encm key msg)) ∧
    (∀ key : Block, exec (.encm key.toList msg) s =
      .next { keyed key s with
        ST := lastOutput (fun b => encrypt standardTables b (expand standardTables key)) (pad msg) s.ST
        responses := s.responses ++ [⟨.ok, encryptMessage standardTables msg key⟩] }) ∧
    ∀ key : List Byte, key.length ≠ 16 → exec (.encm key msg) s = rejected .invalidKeyLength s

/-- R115: DECM. That `ST` is left with the last chunk's output rests on there being one lane, which works through the
chunks in order (R43, log entry 9). -/
def Obligations.DecmCommand : Prop :=
  ∀ (s : State) (ct : List Byte) (outlen : Nat),
    (∀ key, decodeCommand ⟨0x05, [.bytes key, .bytes ct, .number outlen]⟩ = .ok (.decm key ct outlen)) ∧
    (∀ key : Block, outlen ≤ (pad ct).length → exec (.decm key.toList ct outlen) s =
      .next { keyed key s with
        ST := lastOutput (fun b => decrypt standardTables b (expand standardTables key)) (pad ct) s.ST
        responses := s.responses ++ [⟨.ok, decryptMessage standardTables ct key outlen⟩] }) ∧
    (∀ key : Block, (pad ct).length < outlen → exec (.decm key.toList ct outlen) s = rejected .invalidOutputLength s) ∧
    ∀ key : List Byte, key.length ≠ 16 → exec (.decm key ct outlen) s = rejected .invalidKeyLength s

/-- R128, with the causes of R122 to R125: a command reports the first check of its own list that fails, and changes
nothing; it answers OK where none fails; and an illegal opcode comes before every other check. -/
def Obligations.ErrorsAreReportedInOrder : Prop :=
  (∀ (i : Instr) (s : State), i.isMicro = false →
    (∀ e, firstError s i = some e → exec i s = rejected e s) ∧
    (firstError s i = none → ∃ t data, exec i s = .next t ∧ t.responses = s.responses ++ [⟨.ok, data⟩])) ∧
  ∀ (op : Byte) (operands : List Operand) (s : State), op.toNat = 0 ∨ 6 ≤ op.toNat →
    takeCommand exec ⟨op, operands⟩ s = rejected .illegalCommand s

/-- R126: a command, legal or not, that ends with an error leaves the state as it was but for the response, whose data is empty; and no
error arises once a schedule has started. -/
def Obligations.FailedCommandsChangeNothing : Prop :=
  (∀ (c : Command) (s t : State) (r : Response), takeCommand exec c s = .next t → t.responses = s.responses ++ [r] →
    r.status ≠ .ok → r.data = [] ∧ t = { s with responses := s.responses ++ [r] }) ∧
  ∀ (sched : Schedule) (s : State), ∃ t, run engine sched s = .next t ∧ t.responses = s.responses

/-- R49: every command that is not refused ends with exactly one response; on an error its data is empty, and on OK it has
the length its command fixes. -/
def Obligations.EveryCommandRespondsOnce : Prop :=
  ∀ (c : Command) (s : State), decodeCommand c ≠ .error .malformedOperands →
    ∃ t r, takeCommand exec c s = .next t ∧ t.responses = s.responses ++ [r] ∧ (r.status ≠ .ok → r.data = []) ∧
      (r.status = .ok → ∃ i, decodeCommand c = .ok i ∧ r.data.length =
        match i with
        | .expand _ => 176
        | .encb _ | .decb _ => 16
        | .encm _ msg => (pad msg).length
        | .decm _ _ outlen => outlen
        | _ => 0)

/-- 30_encoding.md section 2: the status codes, no two equal, and none above 0x05. -/
def Obligations.StatusCodes : Prop :=
  [Status.ok, .invalidKeyLength, .invalidBlockAlignment, .keyNotExpanded, .invalidOutputLength, .illegalCommand].map
    Status.code = [0x00, 0x01, 0x02, 0x03, 0x04, 0x05] ∧
  ∀ a b : Status, a.code.toNat ≤ 5 ∧ (a.code = b.code → a = b)

/-- 60_exceptions.md section 4: no instruction of the engine ever stops, from any state. The engine's `MAXLEN` is
unbounded (log entry 8). -/
def Obligations.EveryInstructionCompletes : Prop :=
  ∀ (i : Instr) (s : State), ∃ t, exec i s = .next t

/-- R120: after a successful ENCM or DECM the key state is exactly as after EXPAND of the same key, and a later ENCB or
DECB uses that key. -/
def Obligations.MessageCommandsLeaveTheirKey : Prop :=
  ∀ (key : Block) (data : List Byte) (outlen : Nat) (s te tm td : State), outlen ≤ (pad data).length →
    exec (.expand key.toList) s = .next te → exec (.encm key.toList data) s = .next tm →
    exec (.decm key.toList data outlen) s = .next td →
      (∀ t ∈ [te, tm, td], t.XK = expand standardTables key ∧ t.KVALID = true) ∧
      ∀ (b : Block), ∀ t ∈ [te, tm, td],
        (∃ u, exec (.encb b.toList) t = .next u ∧ u.ST = encrypt standardTables b (expand standardTables key)) ∧
        ∃ u, exec (.decb b.toList) t = .next u ∧ u.ST = decrypt standardTables b (expand standardTables key)

/-- R113: a message or ciphertext longer than `MAXLEN` is refused, whatever the key; with `MAXLEN` unbounded nothing is
refused; and padding takes no admitted message over a legal bound. -/
def Obligations.MaxLenBoundsTheMessages : Prop :=
  ∀ (c : Config) (key data : List Byte) (outlen : Nat) (s : State),
    (∀ m, c.maxLen = some m → m < data.length →
      encmWith c key data s = .refused .messageTooLong ∧ decmWith c key data outlen s = .refused .messageTooLong ∧
      Instr.wellFormed c (.encm key data) = false ∧ Instr.wellFormed c (.decm key data outlen) = false) ∧
    ((∀ m, c.maxLen = some m → data.length ≤ m) →
      (∃ t, encmWith c key data s = .next t) ∧ (∃ t, decmWith c key data outlen s = .next t) ∧
      Instr.wellFormed c (.encm key data) = true ∧ Instr.wellFormed c (.decm key data outlen) = true) ∧
    (c.legal = true → c.admits data.length = true → c.admits (pad data).length = true)

/-! ### The functions -/

/-- R88: the expansion of a key, word by word, and the key schedule that computes it in `XK`. That running KS leaves
`Expand(key)` is the spec's own inference, which R88 marks as derived from R80 to R87. -/
def Obligations.ExpandIsTheKeySchedule : Prop :=
  ∀ key : Block,
    let e := expand standardTables key
    let w (r : Fin 11) (j : Fin 4) := keyWord e r j
    roundKey e 0 = key ∧
    (∀ r : Round,
      w r.index 0 = xorBytes (xorBytes (subWord standardTables (rotWord (w r.before 3)))
        #v[standardTables.RCON r, 0, 0, 0]) (w r.before 0) ∧
      w r.index 1 = xorBytes (w r.before 1) (w r.index 0) ∧
      w r.index 2 = xorBytes (w r.before 2) (w r.index 1) ∧
      w r.index 3 = xorBytes (w r.before 3) (w r.index 2)) ∧
    ∀ s : State, ∃ t, run engine .KS (loadKey key s) = .next t ∧ t.XK = e ∧
      t = { s with XK := e, TW := t.TW, UPC := 0, RUN := none }

/-- 41_key_scheduler.md section 4 (d), (e): any one round key determines the key, so that two keys with a round key in
common at one index are equal. -/
def Obligations.AnyRoundKeyDeterminesTheKey : Prop :=
  ∀ (key key' : Block) (r : Fin 11),
    roundKey (expand standardTables key) r = roundKey (expand standardTables key') r → key = key'

/-- 43_inverse_transform.md section 3, 93_implementation_defined.md U14: with any lawful tables `Decrypt` and `Encrypt`
undo each other under every 176-byte string, and the standard tables are lawful. -/
def Obligations.BlockRoundTrip : Prop :=
  LawfulTables standardTables ∧
  ∀ t, LawfulTables t → ∀ (b : Block) (xk : KeyStore),
    decrypt t (encrypt t b xk) xk = b ∧ encrypt t (decrypt t b xk) xk = b

/-- 43_inverse_transform.md section 3, at command level: ENCB of a block and then DECB of the response give the block,
and the other way round, from every state with `KVALID = 1`. -/
def Obligations.BlockCommandsRoundTrip : Prop :=
  ∀ (b : Block) (s : State), s.KVALID = true →
    ∃ (c d : Block) (t u v w : State),
      exec (.encb b.toList) s = .next t ∧ t.responses = s.responses ++ [⟨.ok, c.toList⟩] ∧
      exec (.decb c.toList) t = .next u ∧ u.responses = t.responses ++ [⟨.ok, b.toList⟩] ∧
      exec (.decb b.toList) s = .next v ∧ v.responses = s.responses ++ [⟨.ok, d.toList⟩] ∧
      exec (.encb d.toList) v = .next w ∧ w.responses = v.responses ++ [⟨.ok, b.toList⟩]

/-- R109: what `PAD` appends, and that padding a padded string changes nothing. -/
def Obligations.PaddingLaws : Prop :=
  (∀ m : List Byte,
    ∃ p, p ≤ 15 ∧ pad m = m ++ List.replicate p 0 ∧ (p = 0 ↔ m.length % 16 = 0) ∧
      (pad m).length = 16 * ((m.length + 15) / 16) ∧ pad (pad m) = pad m) ∧
  pad [0x68, 0x65, 0x6c, 0x6c, 0x6f] = pad [0x68, 0x65, 0x6c, 0x6c, 0x6f, 0x00]

/-- R45: output chunk k of ENCM and of DECM is the transform of input chunk k, in chunk order. -/
def Obligations.ChunksAreTransformedOneByOne : Prop :=
  ∀ (key : Block) (data : List Byte) (k : Fin (chunkCount (pad data))),
    ((encryptMessage standardTables data key).drop (16 * k.val)).take 16 =
      (encrypt standardTables (chunk (pad data) k) (expand standardTables key)).toList ∧
    ((decryptMessage standardTables data key (pad data).length).drop (16 * k.val)).take 16 =
      (decrypt standardTables (chunk (pad data) k) (expand standardTables key)).toList ∧
    (encryptMessage standardTables data key).length = 16 * chunkCount (pad data) ∧
    (decryptMessage standardTables data key (pad data).length).length = 16 * chunkCount (pad data)

/-- 44_block_driver.md section 4 (d), (e): encryption of a whole number of chunks followed by more is the concatenation,
and the padding of the message makes no difference. -/
def Obligations.EncryptionOfConcatenation : Prop :=
  ∀ (key : Block) (a b : List Byte), a.length % 16 = 0 →
    encryptMessage standardTables (a ++ b) key =
      encryptMessage standardTables a key ++ encryptMessage standardTables b key ∧
    encryptMessage standardTables b key = encryptMessage standardTables (pad b) key

/-- 44_block_driver.md section 4 (a), (b): decrypting an encrypted message with its length gives the message, for every
message of every length, and with the padded length it gives the padded message. -/
def Obligations.MessageRoundTrip : Prop :=
  ∀ (key : Block) (p : List Byte),
    decryptMessage standardTables (encryptMessage standardTables p key) key p.length = p ∧
    decryptMessage standardTables (encryptMessage standardTables p key) key (pad p).length = pad p

/-! ### The whole machine -/

/-- R141: the RESET event clears `KVALID` and `UPC`, has no response, and leaves the engine waiting for what the host issues
next. Nothing is said of the contents of `XK`, `ST` and `TW`, which are free values (log entry 2). The list of events is
the model's choice (log entry 4). -/
def Obligations.ResetEventClearsTheControlState : Prop :=
  ∀ (s : State) (rest : List HostEvent), s.RUN = none → s.pending = .reset :: rest →
    ∃ t, step s = .next t ∧ t.KVALID = false ∧ t.UPC = 0 ∧ t.RUN = none ∧ t.pending = rest ∧ t.responses = s.responses

/-- 10_state.md section 9: after reset `KVALID` and `UPC` are 0, and a block command is answered KeyNotExpanded. That
the engine with no event to take stays as it is, is the model's choice (log entry 4). -/
def Obligations.ResetStateWaitsForAKey : Prop :=
  State.reset.KVALID = false ∧ State.reset.UPC = 0 ∧ step State.reset = .next State.reset ∧
  ∀ b : Block, exec (.encb b.toList) State.reset = rejected .keyNotExpanded State.reset ∧
    exec (.decb b.toList) State.reset = rejected .keyNotExpanded State.reset

/-- The invariants of 10_state.md section 8 hold after reset. -/
def Obligations.ResetMeetsTheInvariants : Prop := Inv State.reset

/-- 10_state.md section 8 (a), (b): from every state between commands that meets the invariants, every step leads to such
a state again. -/
def Obligations.EveryStepKeepsTheInvariants : Prop :=
  ∀ s t : State, Inv s → step s = .next t → Inv t

/-- R18, of every state, inside a schedule or not: a step keeps `UPC = 0` whenever no schedule runs, and where a schedule
runs before and after, `UPC` has gone up by 1. -/
def Obligations.UpcIsZeroWhileIdle : Prop :=
  ∀ s t : State, SequencerConsistent s → step s = .next t →
    SequencerConsistent t ∧ (∀ a b, s.RUN = some a → t.RUN = some b → b = a ∧ t.UPC.val = s.UPC.val + 1)

/-- 10_state.md section 4: `KVALID` changes to 0 only by a RESET event, and to 1 only by a key-expanding command with a
16-byte key, which then leaves the expansion of that key in `XK`. -/
def Obligations.KeyFlagIsSetAndClearedOnlyAsSaid : Prop :=
  ∀ s t : State, step s = .next t → t.KVALID ≠ s.KVALID →
    s.RUN = none ∧
    ((t.KVALID = false ∧ ∃ rest, s.pending = .reset :: rest) ∨
     (t.KVALID = true ∧ ∃ (c : Command) (rest : List HostEvent) (i : Instr) (key : Block),
       s.pending = .command c :: rest ∧ decodeCommand c = .ok i ∧ keyOperand i = some key.toList ∧
       t.XK = expand standardTables key))

/-- 10_state.md section 3: an instruction that changes `XK` is KXR or a key-expanding command with a 16-byte key; no block
command and no other micro-operation writes it. -/
def Obligations.KeyStoreIsWrittenOnlyAsSaid : Prop :=
  ∀ (i : Instr) (s t : State), exec i s = .next t → t.XK ≠ s.XK →
    (∃ r, i = .kxr r) ∨ ∃ key : Block, keyOperand i = some key.toList ∧ t.XK = expand standardTables key

/-- 10_state.md sections 2 to 5: the frame of all instructions. A micro-operation gives no response, sets no flag and does
not move the sequencer; no micro-operation changes both `ST` and one of `TW` and `XK`; and ENCB and DECB leave `TW`, `XK`
(R14) and `KVALID`. The clauses on `pending` (no instruction takes an event of the host), `draws` (none draws a free value),
`responses` and `RUN` are about the model's own fields (log entries 4, 3, 5 and 6). -/
def Obligations.InstructionFrames : Prop :=
  ∀ (i : Instr) (s t : State), exec i s = .next t →
    t.pending = s.pending ∧ t.draws = s.draws ∧
    (i.isMicro = true → t.responses = s.responses ∧ t.KVALID = s.KVALID ∧ t.UPC = s.UPC ∧ t.RUN = s.RUN) ∧
    ((∃ r, i = .ark r) ∨ i ∈ [.sb, .sr, .mc, .isb, .isr, .imc] → t.TW = s.TW ∧ t.XK = s.XK) ∧
    ((∃ r, i = .krot r ∨ i = .krc r) ∨ i = .ksub → t.ST = s.ST ∧ t.XK = s.XK) ∧
    ((∃ r, i = .kxr r) → t.ST = s.ST ∧ t.TW = s.TW) ∧
    ((∃ key, i = .expand key) → t.ST = s.ST) ∧
    ((∃ b, i = .encb b ∨ i = .decb b) → t.TW = s.TW ∧ t.XK = s.XK ∧ t.KVALID = s.KVALID)

/-- 60_exceptions.md section 4, 10_state.md section 8: what the host sees depends on `KVALID`, on `XK` only where
`KVALID = 1`, and on the commands. Two engines that differ in `ST`, in `TW`, and in `XK` while no key is valid, give the
same responses to the same events for ever. -/
def Obligations.UnspecifiedContentsAreNeverObserved : Prop :=
  ∀ s t : State, HostAlike s t → ∀ n, AlikeOutcomes (stepN n s) (stepN n t)

/-- Log entries 7 and 12: a table word placed where the next step fetches runs as the instruction the decoder reads from it. -/
def Obligations.PlacedTableWordRuns : Prop :=
  ∀ (s : State) (w : Nat) (i : Instr), decodeTableWord 8 w = some i →
    (i.isMicro = false → step (s.withFetchWord 8 w) = exec i { s with RUN := none, UPC := 0 }) ∧
    (i.isMicro = true → ∃ (sched : Schedule) (u : Fin 40),
      step (s.withFetchWord 8 w) =
        andThen (exec i { s with RUN := some sched, UPC := u.castSucc }) fun t => .next { t with UPC := u.succ })
end

