-- ==== Sys2Proof/Laws/Bytes.lean ====
section
/-! SUPPORT. Laws of byte strings and of the accesses to `XK`: what a byte of each result is, read after write, and that
the exclusive-or of a string with itself cancels. -/

namespace Sys2Proof

@[simp] theorem getElem_tabulate {α : Type} {n : Nat} (f : Fin n → α) (i : Nat) (h : i < n) :
    (tabulate f)[i] = f ⟨i, h⟩ := by
  simp [tabulate]

theorem tabulate_getElem {α : Type} {n : Nat} (v : Vector α n) : (tabulate fun i => v[i]) = v := by
  ext i h
  simp

@[simp] theorem getElem_xorBytes {n : Nat} (a b : Vector Byte n) (i : Nat) (h : i < n) :
    (xorBytes a b)[i] = a[i] ^^^ b[i] := by
  simp [xorBytes]

@[simp] theorem xorBytes_cancel_right {n : Nat} (a b : Vector Byte n) : xorBytes (xorBytes a b) b = a := by
  ext i h : 1
  simp

@[simp] theorem xorBytes_cancel_left {n : Nat} (a b : Vector Byte n) : xorBytes a (xorBytes a b) = b := by
  ext i h : 1
  simp

theorem xorBytes_comm {n : Nat} (a b : Vector Byte n) : xorBytes a b = xorBytes b a := by
  ext i h : 1
  simp [BitVec.xor_comm]

namespace Machine

@[simp] theorem getElem_memRead (xk : KeyStore) (a n : Nat) (h : a + n ≤ 176) (i : Nat) (hi : i < n) :
    (memRead xk a n h)[i] = xk[a + i] := by
  simp [memRead]

theorem getElem_memWrite {n : Nat} (xk : KeyStore) (a : Nat) (v : Vector Byte n) (h : a + n ≤ 176) (i : Nat)
    (hi : i < 176) :
    (memWrite xk a v h)[i] = if hin : a ≤ i ∧ i < a + n then v[i - a] else xk[i] := by
  obtain ⟨⟨l⟩, hl⟩ := xk
  obtain ⟨⟨m⟩, hm⟩ := v
  simp only [List.size_toArray] at hl hm
  subst hm
  have hlen : (l.take a ++ m).length = a + m.length := by simp; omega
  simp only [memWrite, Vector.getElem_mk, List.getElem_toArray]
  split
  · rename_i hin
    rw [List.getElem_append_left (by omega), List.getElem_append_right (by simp; omega)]
    simp [Nat.min_eq_left (by omega : a ≤ l.length)]
  · rename_i hout
    by_cases hia : i < a
    · rw [List.getElem_append_left (by omega), List.getElem_append_left (by simp; omega)]
      simp
    · rw [List.getElem_append_right (by omega)]
      simp only [List.getElem_drop, hlen]
      congr 1
      omega

@[simp] theorem getElem_roundKey (xk : KeyStore) (r : Fin 11) (i : Nat) (h : i < 16) :
    (roundKey xk r)[i] = xk[16 * r.val + i] := by
  simp [roundKey]

@[simp] theorem getElem_keyWord (xk : KeyStore) (r : Fin 11) (j : Fin 4) (i : Nat) (h : i < 4) :
    (keyWord xk r j)[i] = xk[16 * r.val + 4 * j.val + i] := by
  simp [keyWord]

@[simp] theorem getElem_blockWord (b : Block) (j : Fin 4) (i : Nat) (h : i < 4) :
    (blockWord b j)[i] = b[4 * j.val + i] := by
  simp [blockWord]

theorem blockWord_roundKey (xk : KeyStore) (r : Fin 11) (j : Fin 4) : blockWord (roundKey xk r) j = keyWord xk r j := by
  ext i h : 1
  simp [Nat.add_assoc]

/-- The bytes that `W(r,j) <- w` writes, and those it leaves. -/
theorem getElem_writeKeyWord (xk : KeyStore) (r : Fin 11) (j : Fin 4) (w : Word4) (i : Nat) (hi : i < 176) :
    (writeKeyWord xk r j w)[i] =
      if hin : 16 * r.val + 4 * j.val ≤ i ∧ i < 16 * r.val + 4 * j.val + 4 then w[i - (16 * r.val + 4 * j.val)]
      else xk[i] := by
  simp only [writeKeyWord, getElem_memWrite]

theorem keyWord_writeKeyWord_same (xk : KeyStore) (r : Fin 11) (j : Fin 4) (w : Word4) :
    keyWord (writeKeyWord xk r j w) r j = w := by
  ext i h : 1
  simp [getElem_writeKeyWord, h]

theorem keyWord_writeKeyWord_other (xk : KeyStore) (r r' : Fin 11) (j j' : Fin 4) (w : Word4)
    (h : r' ≠ r ∨ j' ≠ j) : keyWord (writeKeyWord xk r j w) r' j' = keyWord xk r' j' := by
  have hne : 4 * r'.val + j'.val ≠ 4 * r.val + j.val := by
    intro he
    rcases h with h | h
    · exact h (Fin.ext (by omega))
    · exact h (Fin.ext (by omega))
  ext i hi : 1
  rw [getElem_keyWord, getElem_writeKeyWord, dif_neg (by omega), getElem_keyWord]

theorem block16_toList (b : Block) : block16 b.toList = some b := by
  simp [block16, Vector.toList]

theorem block16_eq_none (l : List Byte) : block16 l = none ↔ l.length ≠ 16 := by
  simp [block16]

theorem block16_eq_some (l : List Byte) (b : Block) : block16 l = some b ↔ l = b.toList := by
  constructor
  · intro h
    unfold block16 at h
    split at h
    · simp only [Option.some.injEq] at h
      subst h
      simp [Vector.toList]
    · simp at h
  · rintro rfl
    exact block16_toList b

end Machine

end Sys2Proof
end

