-- ==== Sys2Proof/Laws/State.lean ====
section
/-! SUPPORT. One lemma per field per named update of the state, true by `rfl`, so that no proof unfolds a record update.
The contents that a RESET event leaves in `XK`, `ST` and `TW` have no lemma: they are unspecified (R24). -/

namespace Sys2Proof.Machine

@[simp] theorem respond_ST (st : Status) (d : List Byte) (s : State) : (respond st d s).ST = s.ST := rfl
@[simp] theorem respond_TW (st : Status) (d : List Byte) (s : State) : (respond st d s).TW = s.TW := rfl
@[simp] theorem respond_XK (st : Status) (d : List Byte) (s : State) : (respond st d s).XK = s.XK := rfl
@[simp] theorem respond_KVALID (st : Status) (d : List Byte) (s : State) : (respond st d s).KVALID = s.KVALID := rfl
@[simp] theorem respond_UPC (st : Status) (d : List Byte) (s : State) : (respond st d s).UPC = s.UPC := rfl
@[simp] theorem respond_RUN (st : Status) (d : List Byte) (s : State) : (respond st d s).RUN = s.RUN := rfl
@[simp] theorem respond_pending (st : Status) (d : List Byte) (s : State) : (respond st d s).pending = s.pending := rfl
@[simp] theorem respond_responses (st : Status) (d : List Byte) (s : State) : (respond st d s).responses = s.responses ++ [⟨st, d⟩] := rfl
@[simp] theorem respond_draws (st : Status) (d : List Byte) (s : State) : (respond st d s).draws = s.draws := rfl

@[simp] theorem loadKey_ST (key : Block) (s : State) : (loadKey key s).ST = s.ST := rfl
@[simp] theorem loadKey_TW (key : Block) (s : State) : (loadKey key s).TW = s.TW := rfl
@[simp] theorem loadKey_XK (key : Block) (s : State) : (loadKey key s).XK = memWrite s.XK 0 key (by omega) := rfl
@[simp] theorem loadKey_KVALID (key : Block) (s : State) : (loadKey key s).KVALID = s.KVALID := rfl
@[simp] theorem loadKey_UPC (key : Block) (s : State) : (loadKey key s).UPC = s.UPC := rfl
@[simp] theorem loadKey_RUN (key : Block) (s : State) : (loadKey key s).RUN = s.RUN := rfl
@[simp] theorem loadKey_pending (key : Block) (s : State) : (loadKey key s).pending = s.pending := rfl
@[simp] theorem loadKey_responses (key : Block) (s : State) : (loadKey key s).responses = s.responses := rfl
@[simp] theorem loadKey_draws (key : Block) (s : State) : (loadKey key s).draws = s.draws := rfl

@[simp] theorem loadBlock_ST (b : Block) (s : State) : (loadBlock b s).ST = b := rfl
@[simp] theorem loadBlock_TW (b : Block) (s : State) : (loadBlock b s).TW = s.TW := rfl
@[simp] theorem loadBlock_XK (b : Block) (s : State) : (loadBlock b s).XK = s.XK := rfl
@[simp] theorem loadBlock_KVALID (b : Block) (s : State) : (loadBlock b s).KVALID = s.KVALID := rfl
@[simp] theorem loadBlock_UPC (b : Block) (s : State) : (loadBlock b s).UPC = s.UPC := rfl
@[simp] theorem loadBlock_RUN (b : Block) (s : State) : (loadBlock b s).RUN = s.RUN := rfl
@[simp] theorem loadBlock_pending (b : Block) (s : State) : (loadBlock b s).pending = s.pending := rfl
@[simp] theorem loadBlock_responses (b : Block) (s : State) : (loadBlock b s).responses = s.responses := rfl
@[simp] theorem loadBlock_draws (b : Block) (s : State) : (loadBlock b s).draws = s.draws := rfl

@[simp] theorem setKeyValid_ST (s : State) : (setKeyValid s).ST = s.ST := rfl
@[simp] theorem setKeyValid_TW (s : State) : (setKeyValid s).TW = s.TW := rfl
@[simp] theorem setKeyValid_XK (s : State) : (setKeyValid s).XK = s.XK := rfl
@[simp] theorem setKeyValid_KVALID (s : State) : (setKeyValid s).KVALID = true := rfl
@[simp] theorem setKeyValid_UPC (s : State) : (setKeyValid s).UPC = s.UPC := rfl
@[simp] theorem setKeyValid_RUN (s : State) : (setKeyValid s).RUN = s.RUN := rfl
@[simp] theorem setKeyValid_pending (s : State) : (setKeyValid s).pending = s.pending := rfl
@[simp] theorem setKeyValid_responses (s : State) : (setKeyValid s).responses = s.responses := rfl
@[simp] theorem setKeyValid_draws (s : State) : (setKeyValid s).draws = s.draws := rfl

@[simp] theorem seqStart_ST (sched : Schedule) (s : State) : (seqStart sched s).ST = s.ST := rfl
@[simp] theorem seqStart_TW (sched : Schedule) (s : State) : (seqStart sched s).TW = s.TW := rfl
@[simp] theorem seqStart_XK (sched : Schedule) (s : State) : (seqStart sched s).XK = s.XK := rfl
@[simp] theorem seqStart_KVALID (sched : Schedule) (s : State) : (seqStart sched s).KVALID = s.KVALID := rfl
@[simp] theorem seqStart_UPC (sched : Schedule) (s : State) : (seqStart sched s).UPC = 0 := rfl
@[simp] theorem seqStart_RUN (sched : Schedule) (s : State) : (seqStart sched s).RUN = some sched := rfl
@[simp] theorem seqStart_pending (sched : Schedule) (s : State) : (seqStart sched s).pending = s.pending := rfl
@[simp] theorem seqStart_responses (sched : Schedule) (s : State) : (seqStart sched s).responses = s.responses := rfl
@[simp] theorem seqStart_draws (sched : Schedule) (s : State) : (seqStart sched s).draws = s.draws := rfl

@[simp] theorem seqEnd_ST (s : State) : (seqEnd s).ST = s.ST := rfl
@[simp] theorem seqEnd_TW (s : State) : (seqEnd s).TW = s.TW := rfl
@[simp] theorem seqEnd_XK (s : State) : (seqEnd s).XK = s.XK := rfl
@[simp] theorem seqEnd_KVALID (s : State) : (seqEnd s).KVALID = s.KVALID := rfl
@[simp] theorem seqEnd_UPC (s : State) : (seqEnd s).UPC = 0 := rfl
@[simp] theorem seqEnd_RUN (s : State) : (seqEnd s).RUN = none := rfl
@[simp] theorem seqEnd_pending (s : State) : (seqEnd s).pending = s.pending := rfl
@[simp] theorem seqEnd_responses (s : State) : (seqEnd s).responses = s.responses := rfl
@[simp] theorem seqEnd_draws (s : State) : (seqEnd s).draws = s.draws := rfl

@[simp] theorem resetEvent_KVALID (s : State) : (resetEvent s).KVALID = false := rfl
@[simp] theorem resetEvent_UPC (s : State) : (resetEvent s).UPC = 0 := rfl
@[simp] theorem resetEvent_RUN (s : State) : (resetEvent s).RUN = none := rfl
@[simp] theorem resetEvent_pending (s : State) : (resetEvent s).pending = s.pending := rfl
@[simp] theorem resetEvent_responses (s : State) : (resetEvent s).responses = s.responses := rfl
@[simp] theorem resetEvent_draws (s : State) : (resetEvent s).draws = s.draws + 1 := rfl

end Sys2Proof.Machine
end

