-- ==== Sys2Proof/Laws/Sequencer.lean ====
section
/-! SUPPORT. What `run(S)` does: the left fold of the 40 micro-operation functions on the datapath state (R55), and that
fold for each of the three schedules. -/

namespace Sys2Proof.Machine

@[simp] theorem andThen_next {α β : Type} (a : α) (f : α → Host.Outcome β Fault Refusal) :
    andThen (.next a) f = f a := rfl

/-- The only way a sequence ends in a next state. -/
theorem andThen_eq_next {α β : Type} {o : Host.Outcome α Fault Refusal} {f : α → Host.Outcome β Fault Refusal} {b : β}
    (h : andThen o f = .next b) : ∃ a, o = .next a ∧ f a = .next b := by
  cases o with
  | next a => exact ⟨a, rfl, h⟩
  | fault r => simp [andThen] at h
  | refused r => simp [andThen] at h

/-- The datapath state of R55. -/
structure Datapath where
  ST : Block
  TW : Word4
  XK : KeyStore

/-- The datapath part of a state. -/
def State.data (s : State) : Datapath := ⟨s.ST, s.TW, s.XK⟩

/-- The state with another datapath part. -/
def State.withData (s : State) (d : Datapath) : State := { s with ST := d.ST, TW := d.TW, XK := d.XK }

@[simp] theorem withData_UPC (s : State) (d : Datapath) : (s.withData d).UPC = s.UPC := rfl
@[simp] theorem withData_RUN (s : State) (d : Datapath) : (s.withData d).RUN = s.RUN := rfl
@[simp] theorem withData_data (s : State) (d : Datapath) : (s.withData d).data = d := rfl

/-- The micro-operation functions on the datapath state. -/
def microData (t : Tables) (d : Datapath) : Instr → Datapath
  | .ark r => { d with ST := xorBytes d.ST (roundKey d.XK r) }
  | .sb => { d with ST := subBytes t d.ST }
  | .sr => { d with ST := shiftRows d.ST }
  | .mc => { d with ST := mixColumns t d.ST }
  | .isb => { d with ST := invSubBytes t d.ST }
  | .isr => { d with ST := invShiftRows d.ST }
  | .imc => { d with ST := invMixColumns t d.ST }
  | .krot r => { d with TW := rotWord (keyWord d.XK r.before 3) }
  | .ksub => { d with TW := subWord t d.TW }
  | .krc r => { d with TW := xorRoundConstant t r d.TW }
  | .kxr r => { d with XK := chainWords d.TW r d.XK }
  | .expand _ | .encb _ | .decb _ | .encm _ _ | .decm _ _ _ => d

/-- Every micro-operation completes and changes the datapath state only. -/
theorem execMicro_eq (c : Config) (i : Instr) (hi : i.isMicro = true) (s : State) :
    execMicro c i s = .next (s.withData (microData c.tables s.data i)) := by
  cases i <;> first | rfl | simp [Instr.isMicro] at hi

/-- The rounds 1 to 10 in order. -/
def allRounds : List Round := [⟨0⟩, ⟨1⟩, ⟨2⟩, ⟨3⟩, ⟨4⟩, ⟨5⟩, ⟨6⟩, ⟨7⟩, ⟨8⟩, ⟨9⟩]

/-- The micro-operations of a schedule, by its pseudo-operations (R59). -/
def scheduleInstrs : Schedule → List Instr
  | .KS => allRounds.flatMap pseudoKROUND
  | .ENC => [.ark 0] ++ [1, 2, 3, 4, 5, 6, 7, 8, 9].flatMap pseudoROUND ++ pseudoFINAL
  | .DEC => pseudoIFIRST ++ [9, 8, 7, 6, 5, 4, 3, 2, 1].flatMap pseudoIROUND ++ [.ark 0]

theorem scheduleInstrs_length (sched : Schedule) : (scheduleInstrs sched).length = 40 := by
  cases sched <;> rfl

/-- Every word of the schedule ROM decodes, to the micro-operation of R54 at that place. -/
theorem decodeUop_romWord (sched : Schedule) (u : Nat) (h : u < 40) :
    decodeUop (romWord sched u) = .ok ((scheduleInstrs sched)[u]'(by rw [scheduleInstrs_length]; exact h)) := by
  have key : ∀ v : Fin 40, (decodeUop (romWord sched v.val)).toOption = (scheduleInstrs sched)[v.val]? := by
    cases sched <;> decide +kernel
  have hu := key ⟨u, h⟩
  simp only [List.getElem?_eq_getElem (show u < (scheduleInstrs sched).length by rw [scheduleInstrs_length]; exact h)] at hu
  cases hd : decodeUop (romWord sched u) with
  | ok i => rw [hd] at hu; simpa [Except.toOption] using hu
  | error e => rw [hd] at hu; simp [Except.toOption] at hu

theorem scheduleInstrs_isMicro (sched : Schedule) : ∀ i ∈ scheduleInstrs sched, i.isMicro = true := by
  cases sched <;> decide +kernel

/-- From any place of a schedule the sequencer runs to its end. -/
theorem seqSteps_eq_foldl (c : Config) (sched : Schedule) (n : Nat) (s : State) (hn : s.UPC.val + n = 40) :
    seqSteps (execMicro c) sched (n + 1) s =
      .next (seqEnd (s.withData (((scheduleInstrs sched).drop s.UPC.val).foldl (microData c.tables) s.data))) := by
  induction n generalizing s with
  | zero =>
    have hdrop : (scheduleInstrs sched).drop s.UPC.val = [] := by
      rw [List.drop_eq_nil_iff, scheduleInstrs_length]; omega
    simp [seqSteps, seqStep, hdrop, show ¬ s.UPC.val < 40 by omega]
    rfl
  | succ n ih =>
    have hlt : s.UPC.val < 40 := by omega
    have hlen : s.UPC.val < (scheduleInstrs sched).length := by rw [scheduleInstrs_length]; exact hlt
    have hmicro := scheduleInstrs_isMicro sched _ (List.getElem_mem hlen)
    rw [seqSteps, seqStep, dif_pos hlt, decodeUop_romWord sched _ hlt]
    simp only [execMicro_eq c _ hmicro, andThen_next]
    rw [ih _ (by simp; omega), List.drop_eq_getElem_cons hlen]
    rfl

/-- `run(S)` is the left fold of the 40 micro-operation functions in index order (R55). -/
theorem run_eq_foldl (c : Config) (sched : Schedule) (s : State) :
    run c sched s = .next (seqEnd (s.withData ((scheduleInstrs sched).foldl (microData c.tables) s.data))) := by
  rw [run, seqSteps_eq_foldl c sched 40 (seqStart sched s) rfl]
  rfl

/-- Any list of standard rounds applies `forwardRound` for each of its round keys. -/
theorem foldl_pseudoROUND (t : Tables) (rs : List (Fin 11)) (d : Datapath) :
    (rs.flatMap pseudoROUND).foldl (microData t) d = { d with ST := rs.foldl (forwardRound t d.XK) d.ST } := by
  induction rs generalizing d with
  | nil => rfl
  | cons r rs ih => rw [List.flatMap_cons, List.foldl_append, ih]; rfl

/-- Any list of inverse rounds applies `inverseRound` for each of its round keys. -/
theorem foldl_pseudoIROUND (t : Tables) (rs : List (Fin 11)) (d : Datapath) :
    (rs.flatMap pseudoIROUND).foldl (microData t) d = { d with ST := rs.foldl (inverseRound t d.XK) d.ST } := by
  induction rs generalizing d with
  | nil => rfl
  | cons r rs ih => rw [List.flatMap_cons, List.foldl_append, ih]; rfl

/-- `run(ENC)` leaves `Encrypt(ST, XK)` in `ST` and changes no other datapath register (R97, R98). -/
theorem run_ENC (c : Config) (s : State) :
    run c .ENC s = .next (seqEnd { s with ST := encrypt c.tables s.ST s.XK }) := by
  rw [run_eq_foldl, scheduleInstrs, List.foldl_append, List.foldl_append, foldl_pseudoROUND]
  rfl

/-- `run(DEC)` leaves `Decrypt(ST, XK)` in `ST` and changes no other datapath register (R105, R106). -/
theorem run_DEC (c : Config) (s : State) :
    run c .DEC s = .next (seqEnd { s with ST := decrypt c.tables s.ST s.XK }) := by
  rw [run_eq_foldl, scheduleInstrs, List.foldl_append, List.foldl_append, foldl_pseudoIROUND]
  rfl

end Sys2Proof.Machine
end

