-- ==== Sys2Proof/Laws/KeySchedule.lean ====
section
/-! SUPPORT. What KXR writes, and what `run(KS)` does: it leaves `Expand` of the loaded key in `XK` (R86 to R88). -/

namespace Sys2Proof.Machine

theorem round_before_ne_index (r : Round) : r.before ≠ r.index := by
  simp [Round.before, Round.index, Fin.ext_iff]

/-- Two stores that hold the same eleven round keys are equal. -/
theorem keyStore_ext (xk xk' : KeyStore) (h : ∀ r, roundKey xk r = roundKey xk' r) : xk = xk' := by
  ext i hi : 1
  have hr := congrArg (fun b : Block => b[i % 16]) (h ⟨i / 16, by omega⟩)
  simp only [getElem_roundKey, Nat.div_add_mod] at hr
  exact hr

/-- Two round keys that hold the same four words are equal. -/
theorem block_ext_words (b b' : Block) (h : ∀ j, blockWord b j = blockWord b' j) : b = b' := by
  ext i hi : 1
  have hj := congrArg (fun w : Word4 => w[i % 4]) (h ⟨i / 4, by omega⟩)
  simp only [getElem_blockWord, Nat.div_add_mod] at hj
  exact hj

/-- Word j of the round key made of four words. -/
theorem blockWord_ofWords (w0 w1 w2 w3 : Word4) (j : Fin 4) :
    blockWord (ofWords w0 w1 w2 w3) j = (#v[w0, w1, w2, w3])[j] := by
  ext i hi : 1
  have h1 : (4 * j.val + i) / 4 = j.val := by omega
  have h2 : (4 * j.val + i) % 4 = i := by omega
  simp only [getElem_blockWord, ofWords, getElem_tabulate, h1, h2]
  rfl

/-- The four words of `nextRoundKey` (R88). -/
theorem blockWord_nextRoundKey (t : Tables) (r : Round) (b : Block) :
    blockWord (nextRoundKey t r b) 0 = xorBytes (scheduleWord t r b) (blockWord b 0) ∧
    blockWord (nextRoundKey t r b) 1 = xorBytes (blockWord b 1) (blockWord (nextRoundKey t r b) 0) ∧
    blockWord (nextRoundKey t r b) 2 = xorBytes (blockWord b 2) (blockWord (nextRoundKey t r b) 1) ∧
    blockWord (nextRoundKey t r b) 3 = xorBytes (blockWord b 3) (blockWord (nextRoundKey t r b) 2) := by
  simp only [nextRoundKey, blockWord_ofWords]
  exact ⟨rfl, rfl, rfl, rfl⟩

/-- The four words that KXR writes (R86). -/
theorem keyWord_chainWords_index (tw : Word4) (r : Round) (xk : KeyStore) :
    keyWord (chainWords tw r xk) r.index 0 = xorBytes tw (keyWord xk r.before 0) ∧
    keyWord (chainWords tw r xk) r.index 1 = xorBytes (keyWord xk r.before 1) (keyWord (chainWords tw r xk) r.index 0) ∧
    keyWord (chainWords tw r xk) r.index 2 = xorBytes (keyWord xk r.before 2) (keyWord (chainWords tw r xk) r.index 1) ∧
    keyWord (chainWords tw r xk) r.index 3 = xorBytes (keyWord xk r.before 3) (keyWord (chainWords tw r xk) r.index 2) := by
  have hb : ∀ (x : KeyStore) (j j' : Fin 4) (w : Word4),
      keyWord (writeKeyWord x r.index j w) r.before j' = keyWord x r.before j' :=
    fun x j j' w => keyWord_writeKeyWord_other x _ _ _ _ w (.inl (round_before_ne_index r))
  have ho : ∀ (x : KeyStore) (j j' : Fin 4) (w : Word4), j' ≠ j →
      keyWord (writeKeyWord x r.index j w) r.index j' = keyWord x r.index j' :=
    fun x j j' w h => keyWord_writeKeyWord_other x _ _ _ _ w (.inr h)
  refine ⟨?_, ?_, ?_, ?_⟩ <;>
  · simp only [chainWords]
    simp (disch := decide) only [hb, ho, keyWord_writeKeyWord_same]

/-- KXR changes no word of another round key (R86). -/
theorem keyWord_chainWords_other (tw : Word4) (r : Round) (xk : KeyStore) (r' : Fin 11) (h : r' ≠ r.index) (j : Fin 4) :
    keyWord (chainWords tw r xk) r' j = keyWord xk r' j := by
  have ho : ∀ (x : KeyStore) (j j' : Fin 4) (w : Word4), keyWord (writeKeyWord x r.index j w) r' j' = keyWord x r' j' :=
    fun x j j' w => keyWord_writeKeyWord_other x _ _ _ _ w (.inl h)
  simp only [chainWords, ho]

/-- One round of `KS`: `TW` takes the word of round r and `XK` takes round key r. -/
theorem foldl_pseudoKROUND (t : Tables) (r : Round) (d : Datapath) :
    (pseudoKROUND r).foldl (microData t) d =
      { d with
        TW := scheduleWord t r (roundKey d.XK r.before)
        XK := chainWords (scheduleWord t r (roundKey d.XK r.before)) r d.XK } := by
  simp only [pseudoKROUND, List.foldl_cons, List.foldl_nil, microData, scheduleWord, blockWord_roundKey]

/-- The round key a round of `KS` makes. -/
theorem roundKey_chainWords_index (t : Tables) (r : Round) (xk : KeyStore) :
    roundKey (chainWords (scheduleWord t r (roundKey xk r.before)) r xk) r.index =
      nextRoundKey t r (roundKey xk r.before) := by
  obtain ⟨h0, h1, h2, h3⟩ := keyWord_chainWords_index (scheduleWord t r (roundKey xk r.before)) r xk
  obtain ⟨n0, n1, n2, n3⟩ := blockWord_nextRoundKey t r (roundKey xk r.before)
  simp only [blockWord_roundKey] at n0 n1 n2 n3
  refine block_ext_words _ _ fun j => ?_
  rw [blockWord_roundKey]
  have e0 := h0.trans n0.symm
  rw [e0] at h1
  have e1 := h1.trans n1.symm
  rw [e1] at h2
  have e2 := h2.trans n2.symm
  rw [e2] at h3
  have e3 := h3.trans n3.symm
  match j with
  | 0 => exact e0
  | 1 => exact e1
  | 2 => exact e2
  | 3 => exact e3

/-- KXR leaves every other round key. -/
theorem roundKey_chainWords_other (tw : Word4) (r : Round) (xk : KeyStore) (r' : Fin 11) (h : r' ≠ r.index) :
    roundKey (chainWords tw r xk) r' = roundKey xk r' := by
  refine block_ext_words _ _ fun j => ?_
  rw [blockWord_roundKey, blockWord_roundKey, keyWord_chainWords_other tw r xk r' h j]

/-- Round key r of `Expand(key)` (R88). -/
theorem roundKey_expand (t : Tables) (key : Block) (r : Fin 11) :
    roundKey (expand t key) r = expandedRoundKey t key r.val r.isLt := by
  ext i hi : 1
  simp only [getElem_roundKey, expand, getElem_tabulate]
  have h1 : (16 * r.val + i) / 16 = r.val := by omega
  have h2 : (16 * r.val + i) % 16 = i := by omega
  simp only [h1, h2]

/-- After n rounds of `KS` the round keys 0 to n are those of `Expand`, and `TW` is the word of round n. -/
theorem foldl_KS (t : Tables) (key : Block) (d : Datapath) (hkey : roundKey d.XK 0 = key) (n : Nat) (hn : n ≤ 10) :
    ∀ e, e = ((allRounds.take n).flatMap pseudoKROUND).foldl (microData t) d →
      e.ST = d.ST ∧
      (∀ (m : Nat) (hm : m < n), m + 1 = n → e.TW = scheduleWord t ⟨⟨m, by omega⟩⟩ (expandedRoundKey t key m (by omega))) ∧
      ∀ (m : Nat) (hm : m ≤ n), roundKey e.XK ⟨m, by omega⟩ = expandedRoundKey t key m (by omega) := by
  induction n with
  | zero =>
    rintro e rfl
    refine ⟨rfl, fun m hm => absurd hm (by omega), fun m hm => ?_⟩
    obtain rfl : m = 0 := by omega
    exact hkey
  | succ n ih =>
    rintro e rfl
    have hround : allRounds[n]? = some ⟨⟨n, by omega⟩⟩ := by
      have : ∀ k : Fin 10, allRounds[k.val]? = some ⟨k⟩ := by decide
      exact this ⟨n, by omega⟩
    obtain ⟨hST, -, hXK⟩ := ih (by omega) _ rfl
    rw [List.take_add_one, hround, List.flatMap_append, List.foldl_append]
    simp only [Option.toList, List.flatMap_cons, List.flatMap_nil, List.append_nil, foldl_pseudoKROUND]
    have hprev := hXK n (Nat.le_refl n)
    refine ⟨hST, ?_, ?_⟩
    · intro m hm he
      obtain rfl : m = n := by omega
      exact congrArg _ hprev
    · intro m hm
      by_cases he : m = n + 1
      · subst he
        refine (roundKey_chainWords_index t ⟨⟨n, by omega⟩⟩ _).trans ?_
        exact congrArg _ hprev
      · rw [roundKey_chainWords_other _ _ _ _ (by simp [Round.index, Fin.ext_iff]; omega)]
        exact hXK m (by omega)

/-- `run(KS)` with the key in `XK[0..16)` leaves `Expand(key)` in `XK`, the word of round 10 in `TW`, and `ST` as it was
(R87, R88). -/
theorem run_KS (c : Config) (s : State) :
    run c .KS s = .next (seqEnd { s with
      TW := scheduleWord c.tables ⟨9⟩ (expandedRoundKey c.tables (roundKey s.XK 0) 9 (by decide))
      XK := expand c.tables (roundKey s.XK 0) }) := by
  obtain ⟨hST, hTW, hXK⟩ := foldl_KS c.tables (roundKey s.XK 0) s.data rfl 10 (by decide) _ rfl
  have hTW' := hTW 9 (by decide) rfl
  have hXK' := keyStore_ext _ (expand c.tables (roundKey s.XK 0)) fun r =>
    (hXK r.val (by omega)).trans (roundKey_expand c.tables _ r).symm
  rw [run_eq_foldl]
  have hlist : scheduleInstrs .KS = (allRounds.take 10).flatMap pseudoKROUND := rfl
  rw [hlist]
  generalize List.foldl (microData c.tables) s.data _ = e at hST hTW' hXK'
  obtain ⟨st, tw, xk⟩ := e
  simp only at hST hTW' hXK'
  subst hST hTW' hXK'
  rfl

/-- The key load puts the key in round key 0 (R33). -/
@[simp] theorem roundKey_loadKey (key : Block) (s : State) : roundKey (loadKey key s).XK 0 = key := by
  ext i hi : 1
  simp [getElem_memWrite, hi]

end Sys2Proof.Machine
end

