-- ==== Sys2Proof/Laws/Driver.lean ====
section
/-! SUPPORT. What the shared operations of the commands do: the key expansion, the block transform and the chunk loop each
complete from every state, with the state they leave. -/

namespace Sys2Proof.Machine

@[simp] theorem engine_tables : engine.tables = standardTables := rfl
@[simp] theorem engine_admits (len : Nat) : engine.admits len = true := rfl

theorem seqEnd_eq (s : State) : seqEnd s = { s with UPC := 0, RUN := none } := rfl

theorem raise_eq_rejected (e : Status) (s : State) : raise e s = rejected e s := rfl

/-- The key expansion of EXPAND, ENCM and DECM (R89, R120). -/
theorem expandKey_engine (key : Block) (s : State) : expandKey engine key s = .next (keyed key s) := by
  rw [expandKey, run_KS, roundKey_loadKey, andThen_next]
  simp only [keyed, engine_tables, roundKey_expand]
  rfl

/-- The function a block schedule computes in `ST`. -/
def blockFunction (t : Tables) : Schedule → Block → KeyStore → Block
  | .KS => fun b _ => b
  | .ENC => encrypt t
  | .DEC => decrypt t

/-- ENC and DEC on a loaded block (R99, R107). -/
theorem transformBlock_eq (c : Config) (sched : Schedule) (h : sched ≠ .KS) (b : Block) (s : State) :
    transformBlock c sched b s =
      .next { s with ST := blockFunction c.tables sched b s.XK, UPC := 0, RUN := none } := by
  cases sched with
  | KS => exact absurd rfl h
  | ENC => exact run_ENC c (loadBlock b s)
  | DEC => exact run_DEC c (loadBlock b s)

/-- The chunk loop completes with the transformed chunks in order, and changes only `ST` (to the last output) and the
sequencer, which is idle after it (R45, R114, R115). -/
theorem transformChunks_eq (c : Config) (sched : Schedule) (h : sched ≠ .KS) (p : List Byte)
    (ks : List (Fin (chunkCount p))) (out : List Byte) (s : State) (hi : Idle s) :
    transformChunks c sched p ks out s =
      .next (out ++ ks.flatMap (fun k => (blockFunction c.tables sched (chunk p k) s.XK).toList),
        { s with
          ST := match ks.getLast? with
            | none => s.ST
            | some k => blockFunction c.tables sched (chunk p k) s.XK }) := by
  induction ks generalizing out s with
  | nil => simp [transformChunks]
  | cons k ks ih =>
    rw [transformChunks, transformBlock_eq c sched h, andThen_next, ih _ _ ⟨rfl, rfl⟩]
    obtain ⟨hr, hu⟩ := hi
    cases hl : ks.getLast? with
    | none =>
      obtain rfl := List.getLast?_eq_none_iff.mp hl
      simp [hr, hu]
    | some k' => simp [hr, hu, List.getLast?_cons, hl]

end Sys2Proof.Machine
end

