-- ==== Sys2Proof/Laws/PerInstr.lean ====
section
/-! SUPPORT. Statements made of every instruction, one lemma per constructor: the first byte of its word matches its row of
the opcode table. -/

namespace Sys2Proof.Laws

/-- The row of the opcode table: its match and mask values (30_encoding.md R47, R52). -/
def tableRow : Instr → Byte × Byte
  | .expand _ => (0x01, 0xFF)
  | .encb _ => (0x02, 0xFF)
  | .decb _ => (0x03, 0xFF)
  | .encm _ _ => (0x04, 0xFF)
  | .decm _ _ _ => (0x05, 0xFF)
  | .ark _ => (0x10, 0xF0)
  | .sb => (0x20, 0xFF)
  | .sr => (0x30, 0xFF)
  | .mc => (0x40, 0xFF)
  | .isb => (0x50, 0xFF)
  | .isr => (0x60, 0xFF)
  | .imc => (0x70, 0xFF)
  | .krot _ => (0x80, 0xF0)
  | .ksub => (0x90, 0xFF)
  | .krc _ => (0xA0, 0xF0)
  | .kxr _ => (0xB0, 0xF0)

/-- The first byte of the word of `i`, under the mask of its row, is the row's match value. -/
def EncodingMatchesRow.Statement (i : Instr) : Prop := (encode i).op &&& (tableRow i).2 = (tableRow i).1

theorem EncodingMatchesRow.expand (key : List Byte) : EncodingMatchesRow.Statement (.expand key) := by
  show (0x01 : Byte) &&& 0xFF = 0x01
  decide

theorem EncodingMatchesRow.encb (block : List Byte) : EncodingMatchesRow.Statement (.encb block) := by
  show (0x02 : Byte) &&& 0xFF = 0x02
  decide

theorem EncodingMatchesRow.decb (block : List Byte) : EncodingMatchesRow.Statement (.decb block) := by
  show (0x03 : Byte) &&& 0xFF = 0x03
  decide

theorem EncodingMatchesRow.encm (key : List Byte) (msg : List Byte) : EncodingMatchesRow.Statement (.encm key msg) := by
  show (0x04 : Byte) &&& 0xFF = 0x04
  decide

theorem EncodingMatchesRow.decm (key : List Byte) (ct : List Byte) (outlen : Nat) : EncodingMatchesRow.Statement (.decm key ct outlen) := by
  show (0x05 : Byte) &&& 0xFF = 0x05
  decide

theorem EncodingMatchesRow.ark (r : Fin 11) : EncodingMatchesRow.Statement (.ark r) := by
  unfold EncodingMatchesRow.Statement
  revert r
  decide +kernel

theorem EncodingMatchesRow.sb : EncodingMatchesRow.Statement .sb := by
  show (0x20 : Byte) &&& 0xFF = 0x20
  decide

theorem EncodingMatchesRow.sr : EncodingMatchesRow.Statement .sr := by
  show (0x30 : Byte) &&& 0xFF = 0x30
  decide

theorem EncodingMatchesRow.mc : EncodingMatchesRow.Statement .mc := by
  show (0x40 : Byte) &&& 0xFF = 0x40
  decide

theorem EncodingMatchesRow.isb : EncodingMatchesRow.Statement .isb := by
  show (0x50 : Byte) &&& 0xFF = 0x50
  decide

theorem EncodingMatchesRow.isr : EncodingMatchesRow.Statement .isr := by
  show (0x60 : Byte) &&& 0xFF = 0x60
  decide

theorem EncodingMatchesRow.imc : EncodingMatchesRow.Statement .imc := by
  show (0x70 : Byte) &&& 0xFF = 0x70
  decide

theorem EncodingMatchesRow.krot (r : Round) : EncodingMatchesRow.Statement (.krot r) := by
  obtain ⟨k⟩ := r
  unfold EncodingMatchesRow.Statement
  revert k
  decide +kernel

theorem EncodingMatchesRow.ksub : EncodingMatchesRow.Statement .ksub := by
  show (0x90 : Byte) &&& 0xFF = 0x90
  decide

theorem EncodingMatchesRow.krc (r : Round) : EncodingMatchesRow.Statement (.krc r) := by
  obtain ⟨k⟩ := r
  unfold EncodingMatchesRow.Statement
  revert k
  decide +kernel

theorem EncodingMatchesRow.kxr (r : Round) : EncodingMatchesRow.Statement (.kxr r) := by
  obtain ⟨k⟩ := r
  unfold EncodingMatchesRow.Statement
  revert k
  decide +kernel

end Sys2Proof.Laws
end

