-- ==== Sys2Proof/Laws/Step.lean ====
section
/-! SUPPORT. What one step does, in the form proofs about several steps cite it: `stepN` is the run of the
host's interface, and inside a schedule `exec` is the sequencer's own execution of a micro-operation. -/

namespace Sys2Proof.Machine

/-- `stepN` is the run of the host's interface. -/
theorem stepN_eq_run (n : Nat) (s : State) : stepN n s = Host.Core.run Sys2Proof.core n s := by
  have h : ∀ (M : Host.Core) (m : Nat) (a : M.State), M.run (m + 1) a =
      match M.step a with
      | .next b => M.run m b
      | .fault r => .fault r
      | .refused r => .refused r := by
    intro M m a
    cases hs : M.step a <;> simp only [Host.Core.run, hs]
  induction n generalizing s with
  | zero => rfl
  | succ n ih =>
    refine Eq.trans ?_ (h Sys2Proof.core n s).symm
    show andThen (Sys2Proof.core.step s) _ = _
    cases Sys2Proof.core.step s with
    | next t => exact ih t
    | fault r => rfl
    | refused r => rfl

/-- Between commands a step takes an event of the host (R41). -/
theorem step_idle {s : State} (h : s.RUN = none) : step s = takeEvent exec s := by
  unfold step
  split
  · rename_i sched hs
    rw [h] at hs
    cases hs
  · rfl

/-- Inside a schedule a step is a turn of the sequencer (R55). -/
theorem step_running {s : State} {sched : Schedule} (h : s.RUN = some sched) : step s = seqStep exec sched s := by
  unfold step
  split
  · rename_i sched' hs
    rw [h] at hs
    cases hs
    rfl
  · rename_i hs
    rw [h] at hs
    cases hs

/-- On the engine itself `exec` of a micro-operation is what the sequencer does with it. -/
theorem exec_micro (i : Instr) (h : i.isMicro = true) (s : State) : exec i s = execMicro engine i s := by
  cases i <;> first | rfl | simp [Instr.isMicro] at h

/-- A turn of the sequencer inside a step is a turn of the `run(S)` inside a command. -/
theorem seqStep_exec (sched : Schedule) (s : State) : seqStep exec sched s = seqStep (execMicro engine) sched s := by
  unfold seqStep
  split
  · rename_i h
    rw [decodeUop_romWord sched _ h]
    simp only
    rw [exec_micro _ (scheduleInstrs_isMicro sched _ (List.getElem_mem _))]
  · rfl

end Sys2Proof.Machine
end

