-- ==== Sys2Proof/Tests/Slice0.lean ====
section
/-! SUPPORT. Tests with expected values from 95_test_vectors.md, and for every obligation that has hypotheses a witness that
meets them together (names beginning witness_). -/

namespace Sys2Proof.Tests

open Sys2Proof.Machine

-- Each test is checked before the next is read, so that none of them waits in a thread of its own.
set_option Elab.async false

/-! ### Inputs -/

/-- The string of `n` bytes whose hexadecimal digits are those of `v`. -/
def hex (n v : Nat) : Vector Byte n := tabulate fun i => hexByte n v i.val

def K0 : Block := hex 16 0x000102030405060708090a0b0c0d0e0f
def P0 : Block := hex 16 0x00112233445566778899aabbccddeeff
def C0 : Block := hex 16 0x69c4e0d86a7b0430d8cdb78070b4c55a

/-- The 176 bytes of V4. -/
def XK0 : KeyStore := hex 176 (0x000102030405060708090a0b0c0d0e0fd6aa74fdd2af72fadaa678f1d6ab76feb692cf0b643dbdf1be9bc5006830b3feb6ff744ed2c2c9bf6c590cbf0469bf41 <<< 896 +
  0x47f7f7bc95353e03f96c32bcfd058dfd3caaa3e8a99f9deb50f3af57adf622aa5e390f7df7a69296a7553dc10aa31f6b14f9701ae35fe28c440adf4d4ea9c026 <<< 384 +
  0x47438735a41c65b9e016baf4aebf7ad2549932d1f08557681093ed9cbe2c974e13111d7fe3944a17f307a78b4d2b30c5)

/-- After `EXPAND K0`, with another `ST`. -/
def ready (st : Block) : State := { State.reset with XK := XK0, TW := hex 4 0x47882fae, KVALID := true, ST := st }

/-- Inside a schedule, at a word of it. -/
def inside (sched : Schedule) (u : Fin 41) : State := { ready P0 with RUN := some sched, UPC := u }

/-- The outcome is a next state for which `f` holds. -/
def next? (o : Host.Outcome State Fault Refusal) (f : State → Bool) : Bool :=
  match o with
  | .next t => f t
  | .fault _ => false
  | .refused _ => false

/-- The response the last command gave. -/
def answered (o : Host.Outcome State Fault Refusal) (status : Status) (data : List Byte) : Bool :=
  next? o fun t => t.responses == [⟨status, data⟩]

/-! ### Well-formedness: the one check, the bound `MAXLEN` (R113) -/

/-- An engine with `MAXLEN = 16`. -/
def small : Config := ⟨some 16, standardTables⟩

theorem test_wellFormed_refuses_a_message_over_maxlen :
    Instr.wellFormed small (.encm K0.toList (List.replicate 17 0xAA)) = false ∧
    Instr.wellFormed small (.decm K0.toList (List.replicate 17 0xAA) 0) = false := by decide +kernel

theorem test_wellFormed_admits_a_message_of_maxlen :
    Instr.wellFormed small (.encm K0.toList (List.replicate 16 0xAA)) = true ∧
    Instr.wellFormed small (.decm [] (List.replicate 16 0xAA) 99) = true := by decide +kernel

/-! ### Decoding: words written out from R47 and R52 (V12) -/

theorem test_decode_commands :
    decodeCommand ⟨0x01, [.bytes K0.toList]⟩ = .ok (.expand K0.toList) ∧
    decodeCommand ⟨0x02, [.bytes P0.toList]⟩ = .ok (.encb P0.toList) ∧
    decodeCommand ⟨0x03, [.bytes C0.toList]⟩ = .ok (.decb C0.toList) ∧
    decodeCommand ⟨0x04, [.bytes K0.toList, .bytes [0x68, 0x65, 0x6c, 0x6c, 0x6f]]⟩ =
      .ok (.encm K0.toList [0x68, 0x65, 0x6c, 0x6c, 0x6f]) ∧
    decodeCommand ⟨0x05, [.bytes K0.toList, .bytes C0.toList, .number 16]⟩ = .ok (.decm K0.toList C0.toList 16) :=
  ⟨rfl, rfl, rfl, rfl, rfl⟩

theorem test_decode_refuses_commands :
    decodeCommand ⟨0x00, []⟩ = .error .illegalCommand ∧ decodeCommand ⟨0x06, [.number 1]⟩ = .error .illegalCommand ∧
    decodeCommand ⟨0xFF, []⟩ = .error .illegalCommand ∧ decodeCommand ⟨0x01, []⟩ = .error .malformedOperands ∧
    decodeCommand ⟨0x05, [.bytes [], .bytes []]⟩ = .error .malformedOperands := ⟨rfl, rfl, rfl, rfl, rfl⟩

theorem test_decode_micro_operations :
    [0x10, 0x1A, 0x20, 0x30, 0x40, 0x50, 0x60, 0x70, 0x81, 0x8A, 0x90, 0xA9, 0xBA].map (fun u => (decodeUop u).toOption) =
      [Instr.ark 0, .ark 10, .sb, .sr, .mc, .isb, .isr, .imc, .krot ⟨0⟩, .krot ⟨9⟩, .ksub, .krc ⟨8⟩, .kxr ⟨9⟩].map some := by
  decide +kernel

theorem test_decode_refuses_micro_operations :
    [0x0F, 0x1B, 0x1F, 0x21, 0x80, 0x8B, 0x91, 0xA0, 0xB0, 0xBB, 0xC0, 0xFF, 0x00].all
      (fun u => (decodeUop u).toOption == none) = true := by decide +kernel

theorem test_decode_48_legal_micro_operations :
    ((List.range 256).filter fun u => (decodeUop (BitVec.ofNat 8 u)).toOption.isSome).length = 48 := by decide +kernel

theorem test_pseudo_operations :
    (pseudoROUND 3).map (fun i => (encode i).op) = [0x20, 0x30, 0x40, 0x13] ∧
    pseudoFINAL.map (fun i => (encode i).op) = [0x20, 0x30, 0x1A] ∧
    pseudoIFIRST.map (fun i => (encode i).op) = [0x1A, 0x60, 0x50] ∧
    (pseudoIROUND 3).map (fun i => (encode i).op) = [0x13, 0x70, 0x60, 0x50] ∧
    (pseudoKROUND ⟨8⟩).map (fun i => (encode i).op) = [0x89, 0x90, 0xA9, 0xB9] := by decide +kernel

/-! ### Tables (V5) -/

theorem test_table_entries :
    ([0x57, 0x7f, 0x80, 0x8d, 0xff].map fun b => [xtime b, standardTables.MUL3 b, standardTables.MUL9 b,
        standardTables.MUL11 b, standardTables.MUL13 b, standardTables.MUL14 b]) =
      [0xaef9d9779e67, 0xfe81aa544dcc, 0x1b9becf7da41, 0x018c89888b07, 0xe51a46a3978d].map (hexBytes 6) ∧
    [standardTables.SBOX 0x53, standardTables.SBOX 0xff, standardTables.INVSBOX 0x00, standardTables.INVSBOX 0x16] =
      [0xed, 0x16, 0x52, 0xff] := by decide +kernel

theorem test_inverses : inv 0x00 = 0x00 ∧ inv 0x02 = 0x8d ∧ inv 0x53 = 0xca := by decide +kernel

/-! ### Micro-operations (V2, V4, V5) -/

theorem test_ark_10 : next? (exec (.ark 10) (ready (hex 16 0xffffffffffffffffffffffffffffffff)))
    (fun t => t.ST == hex 16 0xeceee2801c6bb5e80cf85874b2d4cf3a) = true := by decide +kernel

theorem test_sb : next? (exec .sb (ready (hex 16 0x00102030405060708090a0b0c0d0e0f0)))
    (fun t => t.ST == hex 16 0x63cab7040953d051cd60e0e7ba70e18c) = true := by decide +kernel

theorem test_sr : next? (exec .sr (ready (hex 16 0x000102030405060708090a0b0c0d0e0f)))
    (fun t => t.ST == hex 16 0x00050a0f04090e03080d02070c01060b) = true := by decide +kernel

theorem test_mc : next? (exec .mc (ready (hex 16 0xdb135345f20a225c01000000d4d4d4d5)))
    (fun t => t.ST == hex 16 0x8e4da1bc9fdc589d02010103d5d5d7d6) = true := by decide +kernel

theorem test_isb : next? (exec .isb (ready (hex 16 0x000102030405060708090a0b0c0d0e0f)))
    (fun t => t.ST == hex 16 0x52096ad53036a538bf40a39e81f3d7fb) = true := by decide +kernel

theorem test_isr : next? (exec .isr (ready (hex 16 0x000102030405060708090a0b0c0d0e0f)))
    (fun t => t.ST == hex 16 0x000d0a0704010e0b0805020f0c090603) = true := by decide +kernel

theorem test_imc : next? (exec .imc (ready (hex 16 0xdb135345f20a225c2d26314c80000000)))
    (fun t => t.ST == hex 16 0x32a41d55aec36982a05050d641ecdaf7) = true := by decide +kernel

theorem test_krot_10 : next? (exec (.krot ⟨9⟩) (ready P0))
    (fun t => t.TW == hex 4 0x2c974ebe) = true := by decide +kernel

theorem test_ksub : next? (exec .ksub { ready P0 with TW := hex 4 0x0d0e0f0c })
    (fun t => t.TW == hex 4 0xd7ab76fe) = true := by decide +kernel

theorem test_krc_9_and_10 :
    next? (exec (.krc ⟨8⟩) { ready P0 with TW := hex 4 0x08dab5e4 })
      (fun t => t.TW == hex 4 0x13dab5e4) = true ∧
    next? (exec (.krc ⟨9⟩) { ready P0 with TW := hex 4 0x71882fae })
      (fun t => t.TW == hex 4 0x47882fae) = true := by decide +kernel

/-- Round key 10 is made again over a cleared one. -/
theorem test_kxr_10 :
    next? (exec (.kxr ⟨9⟩) { ready P0 with XK := memWrite XK0 160 (hex 16 0) (by decide) })
      (fun t => roundKey t.XK 10 == roundKey XK0 10) = true := by decide +kernel

/-! ### Commands (V1, V4, V8, V11) -/

theorem test_expand_K0 : next? (exec (.expand K0.toList) State.reset)
    (fun t => t.XK == XK0 && t.TW == hex 4 0x47882fae && t.KVALID && t.UPC == 0) = true := by decide +kernel

theorem test_encb_P0 : next? (exec (.encb P0.toList) (ready P0))
    (fun t => t.ST == C0 && t.responses == [⟨.ok, C0.toList⟩]) = true := by decide +kernel

theorem test_decb_C0 : next? (exec (.decb C0.toList) (ready P0))
    (fun t => t.ST == P0 && t.responses == [⟨.ok, P0.toList⟩]) = true := by decide +kernel

theorem test_encm_hello : answered (exec (.encm K0.toList [0x68, 0x65, 0x6c, 0x6c, 0x6f]) State.reset) .ok
    (hexBytes 16 0xa3a5fcf64804dbb99b2781aebfe338c9) = true := by decide +kernel

theorem test_decm_hello :
    answered (exec (.decm K0.toList (hexBytes 16 0xa3a5fcf64804dbb99b2781aebfe338c9) 5) State.reset) .ok
      [0x68, 0x65, 0x6c, 0x6c, 0x6f] = true := by decide +kernel

theorem test_errors_in_order :
    answered (exec (.encb P0.toList) State.reset) .keyNotExpanded [] = true ∧
    answered (exec (.encb (P0.toList.take 15)) State.reset) .invalidBlockAlignment [] = true ∧
    answered (exec (.decb (P0.toList ++ P0.toList)) (ready P0)) .invalidBlockAlignment [] = true ∧
    answered (exec (.expand (K0.toList ++ [0x10])) State.reset) .invalidKeyLength [] = true ∧
    answered (exec (.encm [0x00, 0x01] P0.toList) State.reset) .invalidKeyLength [] = true ∧
    answered (exec (.decm [0x00, 0x01] C0.toList 99) State.reset) .invalidKeyLength [] = true ∧
    answered (exec (.decm K0.toList C0.toList 17) State.reset) .invalidOutputLength [] = true ∧
    answered (exec (.decm K0.toList [] 1) State.reset) .invalidOutputLength [] = true := by decide +kernel

/-! ### Steps -/

theorem test_step_answers_an_illegal_opcode :
    answered (step { State.reset with pending := [.command ⟨0x06, []⟩] }) .illegalCommand [] = true := by decide +kernel

/-- Word 4 of ENC is ARK 1 (V2). -/
theorem test_step_runs_word_4_of_ENC :
    next? (step { inside .ENC 4 with ST := hex 16 0x5f72641557f5bc92f7be3b291db9f91a })
      (fun t => t.ST == hex 16 0x89d810e8855ace682d1843d8cb128fe4 && t.UPC == 5 && t.RUN == some .ENC) = true := by decide +kernel

theorem test_withFetchWord_micro : next? (step (State.reset.withFetchWord 8 0x20))
    (fun t => t.ST == hex 16 0x63636363636363636363636363636363) = true := by decide +kernel

theorem test_withFetchWord_command : answered (step (State.reset.withFetchWord 8 0x02)) .keyNotExpanded [] = true := by
  decide +kernel

/-! ### Witnesses: inputs that meet the hypotheses of each obligation that has any -/

theorem witness_EncodedInstructionsDecodeBack :
    Instr.isMicro (.kxr ⟨9⟩) = true ∧ Instr.isMicro (.decm [] [0x01] 99) = false := ⟨rfl, rfl⟩

theorem witness_DecodedWordsAreTheEncodings :
    decodeUop 0x1A = .ok (.ark 10) ∧ decodeCommand ⟨0x03, [.bytes []]⟩ = .ok (.decb []) := ⟨rfl, rfl⟩

/-- The legal boundary bytes are legal and their neighbours reserved. -/
theorem witness_LegalMicroOperationBytes :
    [0x10, 0x1A, 0x20, 0x70, 0x81, 0x8A, 0x90, 0xA1, 0xAA, 0xB1, 0xBA].all (fun u => (decodeUop u).toOption.isSome) = true ∧
    [0x0F, 0x1B, 0x2F, 0x7F, 0x80, 0x8B, 0x9F, 0xA0, 0xAB, 0xB0, 0xBB].all (fun u => (decodeUop u).toOption.isNone) = true := by
  decide +kernel

theorem witness_SubstitutionTableIsItsConstruction : gmul 0x53 0xca = 1 ∧ gmul 0xFF 0x1c = 1 := by decide +kernel

theorem witness_TableFacts : (standardTables.MUL14, (14 : Byte)) ∈
    [(standardTables.MUL2, (2 : Byte)), (standardTables.MUL3, 3), (standardTables.MUL9, 9), (standardTables.MUL11, 11),
      (standardTables.MUL13, 13), (standardTables.MUL14, 14)] := by simp

theorem witness_KrcAddsTheRoundConstant : (1 : Fin 4) ≠ 0 ∧ (3 : Fin 4) ≠ 0 := by decide

/-- For r = 10: the first and the last byte written, and the bytes beside them. -/
theorem witness_KxrChainsTheRoundKey :
    0 < 16 ∧ 15 < 16 ∧ 16 * Round.toNat ⟨9⟩ + 15 = 175 ∧
    ¬ (16 * Round.toNat ⟨9⟩ ≤ 159 ∧ 159 < 16 * Round.toNat ⟨9⟩ + 16) ∧
    ¬ (16 * Round.toNat ⟨9⟩ ≤ 176 ∧ 176 < 16 * Round.toNat ⟨9⟩ + 16) := by decide

theorem witness_MicroOperationsUndoEachOther : (Instr.mc, Instr.imc) ∈ [(Instr.sb, Instr.isb), (.sr, .isr), (.mc, .imc)] := by
  decide

theorem witness_StepRunsTheWordAtUpc :
    (inside .KS 0).RUN = some .KS ∧ decodeUop (romWord .KS 0) = .ok (.krot ⟨0⟩) ∧
    (inside .DEC 39).UPC.val < 40 ∧ decodeUop (romWord .DEC 39) = .ok (.ark 0) ∧
    (inside .ENC 40).RUN = some .ENC ∧ (inside .ENC 40).UPC.val = 40 := by
  refine ⟨rfl, rfl, by decide, rfl, rfl, rfl⟩

theorem witness_StartedScheduleRunsToItsEnd : (inside .KS 0).RUN = some .KS ∧ (inside .DEC 40).RUN = some .DEC := ⟨rfl, rfl⟩

/-- A waiting engine with one event to take. -/
def waiting (e : HostEvent) : State := { ready P0 with pending := [e] }

theorem witness_StepExecutesTheDecodedCommand :
    (waiting (.command ⟨0x02, [.bytes P0.toList]⟩)).RUN = none ∧
    (waiting (.command ⟨0x02, [.bytes P0.toList]⟩)).pending = .command ⟨0x02, [.bytes P0.toList]⟩ :: [] ∧
    decodeCommand ⟨0x02, [.bytes P0.toList]⟩ = .ok (.encb P0.toList) := ⟨rfl, rfl, rfl⟩

theorem witness_IllegalOpcodesAreAnswered :
    (0x00 : Byte).toNat = 0 ∧ 6 ≤ (0x06 : Byte).toNat ∧ 6 ≤ (0xFF : Byte).toNat ∧ 1 ≤ (0x01 : Byte).toNat ∧
    (0x05 : Byte).toNat ≤ 5 := by decide

theorem witness_MalformedCommandsAreRefused :
    (waiting (.command ⟨0x05, []⟩)).RUN = none ∧ (waiting (.command ⟨0x05, []⟩)).pending = .command ⟨0x05, []⟩ :: [] ∧
    1 ≤ (0x05 : Byte).toNat ∧ (0x05 : Byte).toNat ≤ 5 ∧ ∀ i, encode i ≠ ⟨0x05, []⟩ := by
  refine ⟨rfl, rfl, by decide, by decide, fun i h => ?_⟩
  have hd : ∀ j : Instr, j.isMicro = true → (encode j).op ≠ 0x05 := by
    intro j hj
    cases j with
    | ark r => revert r; decide +kernel
    | krot r => obtain ⟨k⟩ := r; revert k; decide +kernel
    | krc r => obtain ⟨k⟩ := r; revert k; decide +kernel
    | kxr r => obtain ⟨k⟩ := r; revert k; decide +kernel
    | sb | sr | mc | isb | isr | imc | ksub => decide
    | expand | encb | decb | encm | decm => cases hj
  cases hm : i.isMicro with
  | true => exact hd i hm (congrArg Command.op h)
  | false => cases i <;> first | cases h | cases hm

theorem witness_ExpandCommand : ([] : List Byte).length ≠ 16 ∧ (K0.toList ++ [0x10]).length ≠ 16 := by decide +kernel

theorem witness_EncbCommand : (ready P0).KVALID = true ∧ State.reset.KVALID = false ∧ (P0.toList.take 15).length ≠ 16 :=
  ⟨rfl, rfl, by decide +kernel⟩

theorem witness_DecbCommand : (ready P0).KVALID = true ∧ State.reset.KVALID = false ∧ (P0.toList ++ P0.toList).length ≠ 16 :=
  ⟨rfl, rfl, by decide +kernel⟩

theorem witness_EncmCommand : (K0.toList.take 15).length ≠ 16 := by decide +kernel

/-- The clauses meet at an output length of exactly the padded length (V8: n=16 and n=17). -/
theorem witness_DecmCommand :
    16 ≤ (pad C0.toList).length ∧ (pad C0.toList).length < 17 ∧ 0 ≤ (pad []).length ∧ (pad []).length < 1 ∧
    ([0x00, 0x01] : List Byte).length ≠ 16 := by decide +kernel

/-- Where two causes hold at once: an operand check comes before the check of `KVALID`, the key before the output length. -/
theorem witness_ErrorsAreReportedInOrder :
    firstError State.reset (.expand [0x00, 0x01]) = some .invalidKeyLength ∧
    firstError State.reset (.encb (P0.toList.take 15)) = some .invalidBlockAlignment ∧
    firstError State.reset (.decb P0.toList) = some .keyNotExpanded ∧
    firstError State.reset (.decm [0x00, 0x01] C0.toList 17) = some .invalidKeyLength ∧
    firstError State.reset (.decm K0.toList C0.toList 17) = some .invalidOutputLength ∧
    firstError State.reset (.decm K0.toList C0.toList 16) = none ∧ firstError (ready P0) (.encb P0.toList) = none ∧
    firstError State.reset (.encm K0.toList []) = none ∧ Instr.isMicro (.decm K0.toList C0.toList 17) = false ∧
    (0x00 : Byte).toNat = 0 ∧ 6 ≤ (0x06 : Byte).toNat := by decide +kernel

theorem witness_FailedCommandsChangeNothing :
    takeCommand exec ⟨0x02, [.bytes []]⟩ State.reset = .next { State.reset with responses := [⟨.invalidBlockAlignment, []⟩] } ∧
    [⟨.invalidBlockAlignment, []⟩] = State.reset.responses ++ [⟨Status.invalidBlockAlignment, []⟩] ∧
    Status.invalidBlockAlignment ≠ .ok := ⟨rfl, rfl, by decide⟩

theorem witness_EveryCommandRespondsOnce :
    decodeCommand ⟨0x06, []⟩ ≠ .error .malformedOperands ∧
    decodeCommand ⟨0x04, [.bytes K0.toList, .bytes []]⟩ ≠ .error .malformedOperands := ⟨nofun, nofun⟩

theorem witness_StatusCodes : Status.illegalCommand.code = Status.illegalCommand.code := rfl

theorem witness_MessageCommandsLeaveTheirKey : ∃ te tm td, 5 ≤ (pad [0x61]).length ∧
    exec (.expand K0.toList) State.reset = .next te ∧ exec (.encm K0.toList [0x61]) State.reset = .next tm ∧
    exec (.decm K0.toList [0x61] 5) State.reset = .next td := by
  have hc : ¬ 5 > (pad [0x61]).length := by decide
  have hi : Idle (keyed K0 State.reset) := ⟨rfl, rfl⟩
  have he : ∃ t, exec (.expand K0.toList) State.reset = .next t := by
    simp only [exec, execExpand, expandWith, block16_toList, expandKey_engine, andThen_next]
    exact ⟨_, rfl⟩
  have hm : ∃ t, exec (.encm K0.toList [0x61]) State.reset = .next t := by
    simp only [exec, execEncm, encmWith, engine_admits, if_true, block16_toList, expandKey_engine, andThen_next,
      transformChunks_eq engine .ENC (by decide) _ _ _ _ hi]
    exact ⟨_, rfl⟩
  have hd : ∃ t, exec (.decm K0.toList [0x61] 5) State.reset = .next t := by
    simp only [exec, execDecm, decmWith, engine_admits, if_true, if_neg hc, block16_toList, expandKey_engine,
      andThen_next, transformChunks_eq engine .DEC (by decide) _ _ _ _ hi]
    exact ⟨_, rfl⟩
  obtain ⟨te, he⟩ := he
  obtain ⟨tm, hm⟩ := hm
  obtain ⟨td, hd⟩ := hd
  exact ⟨te, tm, td, by decide, he, hm, hd⟩

theorem witness_MaxLenBoundsTheMessages :
    small.maxLen = some 16 ∧ 16 < (List.replicate 17 (0xAA : Byte)).length ∧
    (∀ m, small.maxLen = some m → (List.replicate 16 (0xAA : Byte)).length ≤ m) ∧
    (∀ m, engine.maxLen = some m → (List.replicate 17 (0xAA : Byte)).length ≤ m) ∧
    small.legal = true ∧ small.admits (List.replicate 16 (0xAA : Byte)).length = true := by
  refine ⟨rfl, by decide, fun m h => ?_, fun m h => absurd (show (none : Option Nat) = some m from h) (by simp), rfl, by decide⟩
  cases h
  decide

theorem witness_AnyRoundKeyDeterminesTheKey :
    roundKey (expand standardTables K0) 10 = roundKey (expand standardTables K0) 10 := rfl

/-- Other tables than the standard ones that are lawful: no substitution at all. -/
theorem witness_BlockRoundTrip : LawfulTables
    { SBOX := id
      INVSBOX := id
      MUL2 := (gmul · 2)
      MUL3 := (gmul · 3)
      MUL9 := (gmul · 9)
      MUL11 := (gmul · 11)
      MUL13 := (gmul · 13)
      MUL14 := (gmul · 14)
      RCON := fun _ => 0 } :=
  ⟨fun _ => rfl, fun _ => rfl, fun _ => rfl, fun _ => rfl, fun _ => rfl, fun _ => rfl, fun _ => rfl, fun _ => rfl⟩

theorem witness_BlockCommandsRoundTrip : (ready P0).KVALID = true := rfl

theorem witness_PaddingLaws : ((0 : Nat) = 0 ↔ P0.toList.length % 16 = 0) ∧ ((15 : Nat) = 0 ↔ [(0x80 : Byte)].length % 16 = 0) := by
  decide +kernel

theorem witness_ChunksAreTransformedOneByOne : 1 < chunkCount (pad (P0.toList ++ [0xaa])) := by decide +kernel

theorem witness_EncryptionOfConcatenation : ([] : List Byte).length % 16 = 0 ∧ P0.toList.length % 16 = 0 := by decide +kernel

theorem witness_ResetEventClearsTheControlState : (waiting .reset).RUN = none ∧ (waiting .reset).pending = .reset :: [] := ⟨rfl, rfl⟩

/-- A keyed engine meets the invariants, and its step is the next command. -/
theorem witness_EveryStepKeepsTheInvariants : ∃ s t, s.KVALID = true ∧ Inv s ∧ step s = .next t ∧ t.responses ≠ s.responses := by
  refine ⟨{ keyed K0 State.reset with pending := [.command ⟨0x06, []⟩] }, _, rfl, ⟨⟨rfl, rfl⟩, fun _ => ?_⟩, rfl, by decide⟩
  show expand standardTables K0 = expand standardTables (roundKey (expand standardTables K0) 0)
  rw [roundKey_expand]
  rfl

theorem witness_UpcIsZeroWhileIdle :
    SequencerConsistent State.reset ∧ step State.reset = .next State.reset ∧
    SequencerConsistent (inside .ENC 39) ∧ (∃ t, step (inside .ENC 39) = .next t ∧ t.RUN = some .ENC) := by
  refine ⟨fun _ => rfl, rfl, fun h => absurd h (by decide), ?_⟩
  rw [step_running (sched := .ENC) rfl, seqStep_exec]
  exact ⟨_, rfl, rfl⟩

theorem witness_KeyFlagIsSetAndClearedOnlyAsSaid :
    (∃ t, step (waiting .reset) = .next t ∧ t.KVALID ≠ (waiting .reset).KVALID) ∧
    ∃ t, step { State.reset with pending := [.command ⟨0x01, [.bytes K0.toList]⟩] } = .next t ∧ t.KVALID ≠ State.reset.KVALID := by
  refine ⟨⟨_, rfl, by decide⟩, ?_⟩
  rw [step_idle rfl]
  simp only [takeEvent, takeCommand, show decodeCommand ⟨0x01, [.bytes K0.toList]⟩ = .ok (.expand K0.toList) from rfl, exec,
    execExpand, expandWith, block16_toList, expandKey_engine, andThen_next]
  exact ⟨_, rfl, by decide⟩

theorem witness_KeyStoreIsWrittenOnlyAsSaid : ∃ t, exec (.kxr ⟨0⟩) (ready P0) = .next t ∧ t.XK ≠ (ready P0).XK :=
  ⟨_, rfl, by decide +kernel⟩

theorem witness_InstructionFrames :
    (∃ t, exec .mc (ready P0) = .next t) ∧ Instr.mc ∈ [Instr.sb, .sr, .mc, .isb, .isr, .imc] ∧
    ∃ t, exec (.encb [0x00]) (ready P0) = .next t := ⟨⟨_, rfl⟩, by decide, ⟨_, rfl⟩⟩

/-- Two engines without a key that differ in `ST`, `TW` and `XK`. -/
theorem witness_UnspecifiedContentsAreNeverObserved : HostAlike { ready P0 with KVALID := false } State.reset :=
  ⟨rfl, rfl, rfl, rfl, rfl, fun h => by cases h⟩

theorem witness_PlacedTableWordRuns :
    decodeTableWord 8 0x01 = some (.expand (List.replicate 16 0)) ∧ Instr.isMicro (.expand (List.replicate 16 0)) = false ∧
    decodeTableWord 8 0xBA = some (.kxr ⟨9⟩) ∧ Instr.isMicro (.kxr ⟨9⟩) = true := ⟨rfl, rfl, rfl, rfl⟩

end Sys2Proof.Tests
end

section
/-! PROOFS. The output of a message command as a concatenation of blocks, and where its block k stands (20_memory.md R45,
44_block_driver.md R111, R112). -/

namespace Sys2Proof.Machine

/-- A padded message is exactly its chunks (R109, R110). -/
theorem length_pad (m : List Byte) : (pad m).length = 16 * chunkCount (pad m) := by
  simp only [chunkCount, pad, List.length_append, List.length_replicate]
  omega

/-- A concatenation of blocks is 16 bytes long for each of them. -/
theorem length_flatMap_blocks {ι : Type} (f : ι → Block) (ks : List ι) :
    (ks.flatMap fun k => (f k).toList).length = 16 * ks.length := by
  simp [List.length_flatMap, Nat.mul_comm]

/-- Bytes 16i to 16i+15 of a concatenation of blocks are the block at position `i` of the list. -/
theorem take_drop_flatMap_blocks {ι : Type} (f : ι → Block) (ks : List ι) (i : Nat) (h : i < ks.length) :
    ((ks.flatMap fun k => (f k).toList).drop (16 * i)).take 16 = (f ks[i]).toList := by
  induction ks generalizing i with
  | nil => exact absurd h (Nat.not_lt_zero i)
  | cons k ks ih =>
    have hk : (f k).toList.length = 16 := Vector.length_toList
    rw [List.flatMap_cons]
    cases i with
    | zero => exact List.take_left' hk
    | succ i =>
      rw [Nat.mul_succ, Nat.add_comm, ← List.drop_drop, List.drop_left' hk]
      exact ih i (Nat.lt_of_succ_lt_succ h)

/-- The length of `EncryptMessage`: that of the padded message (R111). -/
theorem length_encryptMessage (t : Tables) (msg : List Byte) (key : Block) :
    (encryptMessage t msg key).length = 16 * chunkCount (pad msg) := by
  rw [encryptMessage, length_flatMap_blocks, List.length_finRange]

/-- Output chunk `k` of `EncryptMessage` (R45, R111). -/
theorem take_drop_encryptMessage (t : Tables) (msg : List Byte) (key : Block) (k : Fin (chunkCount (pad msg))) :
    ((encryptMessage t msg key).drop (16 * k.val)).take 16 = (encrypt t (chunk (pad msg) k) (expand t key)).toList := by
  rw [encryptMessage, take_drop_flatMap_blocks _ _ k.val (by simp)]
  simp

/-- At the padded length `DecryptMessage` discards nothing: it is every decrypted chunk, in order (R112). -/
theorem decryptMessage_full (t : Tables) (ct : List Byte) (key : Block) :
    decryptMessage t ct key (pad ct).length =
      (List.finRange (chunkCount (pad ct))).flatMap fun k => (decrypt t (chunk (pad ct) k) (expand t key)).toList := by
  rw [decryptMessage, List.take_of_length_le]
  rw [length_flatMap_blocks, List.length_finRange, length_pad]

/-- The length of the full `DecryptMessage` (R112). -/
theorem length_decryptMessage_full (t : Tables) (ct : List Byte) (key : Block) :
    (decryptMessage t ct key (pad ct).length).length = 16 * chunkCount (pad ct) := by
  rw [decryptMessage_full, length_flatMap_blocks, List.length_finRange]

/-- Output chunk `k` of the full `DecryptMessage` (R45, R112). -/
theorem take_drop_decryptMessage_full (t : Tables) (ct : List Byte) (key : Block) (k : Fin (chunkCount (pad ct))) :
    ((decryptMessage t ct key (pad ct).length).drop (16 * k.val)).take 16 =
      (decrypt t (chunk (pad ct) k) (expand t key)).toList := by
  rw [decryptMessage_full, take_drop_flatMap_blocks _ _ k.val (by simp)]
  simp

/-- Settles O45: both outputs are concatenations of 16-byte blocks, one for each chunk number in order, and the padded
length cuts nothing off the decrypted ones. -/
theorem chunksAreTransformedOneByOne : Obligations.ChunksAreTransformedOneByOne := by
  intro key data k
  exact ⟨take_drop_encryptMessage _ data key k, take_drop_decryptMessage_full _ data key k,
    length_encryptMessage _ data key, length_decryptMessage_full _ data key⟩

end Sys2Proof.Machine
end

section
/-! PROOFS. Which micro-operation bytes are legal, by code and round index, and the words of the three schedules
(30_encoding.md R52 to R54, R59). -/

namespace Sys2Proof

theorem toNat_codeField (u : Byte) : (u >>> 4).toNat = u.toNat / 16 := by
  simp [Nat.shiftRight_eq_div_pow]

theorem toNat_roundField (u : Byte) : (u &&& 0x0F).toNat = u.toNat % 16 := by
  simpa using Nat.and_two_pow_sub_one_eq_mod u.toNat 4

theorem decodePlain_isOk (i : Instr) (r : Nat) : (∃ j, decodePlain i r = .ok j) ↔ r = 0 := by
  unfold decodePlain
  split <;> simp [*]

theorem decodeKeyIndex_isOk (r : Nat) : (∃ j, decodeKeyIndex r = .ok j) ↔ r ≤ 10 := by
  unfold decodeKeyIndex
  split <;> simp <;> omega

theorem decodeRound_isOk (make : Round → Instr) (r : Nat) :
    (∃ j, decodeRound make r = .ok j) ↔ 1 ≤ r ∧ r ≤ 10 := by
  unfold decodeRound
  split <;> simp [*]

/-- The code and r fields of the legal micro-operation words (R53). -/
def LegalUopFields (code r : Nat) : Prop :=
  (code = 0x1 ∧ r ≤ 10) ∨ (code ∈ [0x8, 0xA, 0xB] ∧ 1 ≤ r ∧ r ≤ 10) ∨
    (code ∈ [0x2, 0x3, 0x4, 0x5, 0x6, 0x7, 0x9] ∧ r = 0)

/-- A byte decodes exactly where its fields are legal: for each of the 16 codes, by the range of its r field. -/
theorem decodeUop_isOk (u : Byte) : (∃ i, decodeUop u = .ok i) ↔ LegalUopFields (u.toNat / 16) (u.toNat % 16) := by
  have hcode : u.toNat / 16 < 16 := by omega
  unfold decodeUop LegalUopFields
  rw [toNat_codeField, toNat_roundField]
  generalize u.toNat / 16 = code at hcode
  interval_cases code <;> simp [decodePlain_isOk, decodeKeyIndex_isOk, decodeRound_isOk]

/-- The decoder's one error is the reserved word (R56). -/
theorem decodeUop_reserved {u : Byte} (h : ¬ ∃ i, decodeUop u = .ok i) : decodeUop u = .error .reservedWord := by
  cases hd : decodeUop u with
  | ok i => exact absurd ⟨i, hd⟩ h
  | error e => cases e; rfl

namespace Machine

/-- The 40 words of a schedule decode to its micro-operations, in order (R54). -/
theorem map_decodeUop_romWord (sched : Schedule) :
    ((List.range 40).map fun u => decodeUop (romWord sched u)) = (scheduleInstrs sched).map .ok := by
  refine List.ext_getElem (by simp [scheduleInstrs_length]) fun u hu _ => ?_
  simp only [List.length_map, List.length_range] at hu
  simp [decodeUop_romWord sched u hu]

/-- Settles O3: the legal bytes by the fields of R53, and the ROM by the micro-operation at each of its positions. -/
theorem legalMicroOperationBytes : Obligations.LegalMicroOperationBytes :=
  ⟨fun u => ⟨(decodeUop_isOk u).mpr, fun h => decodeUop_reserved (mt (decodeUop_isOk u).mp h)⟩,
    fun sched u => ⟨_, decodeUop_romWord sched u.val u.isLt⟩⟩

/-- Settles O5: the lists of pseudo-operations are the schedules' micro-operations. -/
theorem schedulesExpandTheirPseudoOperations : Obligations.SchedulesExpandTheirPseudoOperations :=
  ⟨map_decodeUop_romWord .ENC, map_decodeUop_romWord .DEC, map_decodeUop_romWord .KS⟩

end Machine

end Sys2Proof
end

section
/-! PROOFS. What each command answers, from every state: its error, or the exact next state (R89, R99, R107, R114, R115,
R128); and the one response of a command (R49). -/

namespace Sys2Proof.Machine

theorem exists_block_of_length {l : List Byte} (h : l.length = 16) : ∃ b : Block, l = b.toList :=
  ⟨⟨⟨l⟩, by simpa using h⟩, rfl⟩

/-! ### EXPAND -/

theorem exec_expand (key : Block) (s : State) :
    exec (.expand key.toList) s = .next (respond .ok (expand standardTables key).toList (keyed key s)) := by
  simp only [exec, execExpand, expandWith, block16_toList, expandKey_engine, andThen_next]
  rfl

theorem exec_expand_invalidKeyLength {key : List Byte} (h : key.length ≠ 16) (s : State) :
    exec (.expand key) s = rejected .invalidKeyLength s := by
  simp only [exec, execExpand, expandWith, (block16_eq_none key).mpr h, raise_eq_rejected]

/-! ### ENCB and DECB -/

theorem blockWith_keyValid {sched : Schedule} (hs : sched ≠ .KS) (b : Block) {s : State} (hk : s.KVALID = true) :
    blockWith engine sched b.toList s =
      .next (respond .ok (blockFunction standardTables sched b s.XK).toList
        { s with ST := blockFunction standardTables sched b s.XK, UPC := 0, RUN := none }) := by
  simp only [blockWith, block16_toList, keyValid, hk, if_true, transformBlock_eq _ _ hs, andThen_next, engine_tables]

theorem blockWith_keyNotExpanded (sched : Schedule) (b : Block) {s : State} (hk : s.KVALID = false) :
    blockWith engine sched b.toList s = rejected .keyNotExpanded s := by
  simp [blockWith, block16_toList, keyValid, hk, raise_eq_rejected]

theorem blockWith_invalidBlockAlignment (sched : Schedule) {b : List Byte} (h : b.length ≠ 16) (s : State) :
    blockWith engine sched b s = rejected .invalidBlockAlignment s := by
  simp only [blockWith, (block16_eq_none b).mpr h, raise_eq_rejected]

/-! ### ENCM and DECM -/

/-- The chunk loop of a message command, after its key expansion (R114 step 4, R115 step 5). -/
theorem transformChunks_keyed {sched : Schedule} (hs : sched ≠ .KS) (p : List Byte) (key : Block) (s : State) :
    transformChunks engine sched p (List.finRange _) [] (keyed key s) =
      .next ((List.finRange (chunkCount p)).flatMap fun k =>
          (blockFunction standardTables sched (chunk p k) (expand standardTables key)).toList,
        { keyed key s with
          ST := lastOutput (fun b => blockFunction standardTables sched b (expand standardTables key)) p s.ST }) := by
  rw [transformChunks_eq engine sched hs _ _ _ _ ⟨rfl, rfl⟩]
  rfl

theorem exec_encm (key : Block) (msg : List Byte) (s : State) :
    exec (.encm key.toList msg) s =
      .next (respond .ok (encryptMessage standardTables msg key)
        { keyed key s with
          ST := lastOutput (fun b => encrypt standardTables b (expand standardTables key)) (pad msg) s.ST }) := by
  simp only [exec, execEncm, encmWith, engine_admits, if_true, block16_toList, expandKey_engine, andThen_next,
    transformChunks_keyed (show Schedule.ENC ≠ .KS by decide)]
  rfl

theorem exec_encm_invalidKeyLength {key : List Byte} (h : key.length ≠ 16) (msg : List Byte) (s : State) :
    exec (.encm key msg) s = rejected .invalidKeyLength s := by
  simp only [exec, execEncm, encmWith, engine_admits, if_true, (block16_eq_none key).mpr h, raise_eq_rejected]

theorem exec_decm (key : Block) {ct : List Byte} {outlen : Nat} (ho : outlen ≤ (pad ct).length) (s : State) :
    exec (.decm key.toList ct outlen) s =
      .next (respond .ok (decryptMessage standardTables ct key outlen)
        { keyed key s with
          ST := lastOutput (fun b => decrypt standardTables b (expand standardTables key)) (pad ct) s.ST }) := by
  simp only [exec, execDecm, decmWith, engine_admits, if_true, block16_toList, if_neg (Nat.not_lt.mpr ho),
    expandKey_engine, andThen_next, transformChunks_keyed (show Schedule.DEC ≠ .KS by decide)]
  rfl

theorem exec_decm_invalidOutputLength (key : Block) {ct : List Byte} {outlen : Nat} (ho : (pad ct).length < outlen)
    (s : State) : exec (.decm key.toList ct outlen) s = rejected .invalidOutputLength s := by
  simp only [exec, execDecm, decmWith, engine_admits, if_true, block16_toList, if_pos ho, raise_eq_rejected]

theorem exec_decm_invalidKeyLength {key : List Byte} (h : key.length ≠ 16) (ct : List Byte) (outlen : Nat)
    (s : State) : exec (.decm key ct outlen) s = rejected .invalidKeyLength s := by
  simp only [exec, execDecm, decmWith, engine_admits, if_true, (block16_eq_none key).mpr h, raise_eq_rejected]

theorem length_decryptMessage (t : Tables) (key : Block) {ct : List Byte} {outlen : Nat}
    (ho : outlen ≤ (pad ct).length) : (decryptMessage t ct key outlen).length = outlen := by
  rw [decryptMessage, List.length_take, length_flatMap_blocks, List.length_finRange, ← length_pad]
  exact Nat.min_eq_left ho

/-! ### Every command -/

/-- The length of a command's data on OK (R49). -/
def okLength : Instr → Nat
  | .expand _ => 176
  | .encb _ | .decb _ => 16
  | .encm _ msg => (pad msg).length
  | .decm _ _ outlen => outlen
  | _ => 0

/-- What a command can do, by the first of its checks that fails: report that error and change nothing else, or, where
none fails, respond OK with data of its fixed length (R49, R126, R128). -/
theorem exec_command_cases (i : Instr) (hi : i.isMicro = false) (s : State) :
    (∃ e, firstError s i = some e ∧ e ≠ .ok ∧ exec i s = rejected e s) ∨
    (firstError s i = none ∧ ∃ t data, exec i s = .next (respond .ok data t) ∧ t.responses = s.responses ∧
      data.length = okLength i) := by
  cases i with
  | expand key =>
    by_cases h : key.length = 16
    · obtain ⟨k, rfl⟩ := exists_block_of_length h
      exact .inr ⟨if_pos h, _, _, exec_expand k s, rfl, Vector.length_toList⟩
    · exact .inl ⟨_, if_neg h, nofun, exec_expand_invalidKeyLength h s⟩
  | encb block | decb block =>
    by_cases h : block.length = 16
    · obtain ⟨b, rfl⟩ := exists_block_of_length h
      cases hk : s.KVALID with
      | true =>
        exact .inr ⟨by simp [firstError, hk], _, _, blockWith_keyValid (by decide) b hk, rfl, Vector.length_toList⟩
      | false => exact .inl ⟨.keyNotExpanded, by simp [firstError, hk], nofun, blockWith_keyNotExpanded _ b hk⟩
    · exact .inl ⟨_, if_neg h, nofun, blockWith_invalidBlockAlignment _ h s⟩
  | encm key msg =>
    by_cases h : key.length = 16
    · obtain ⟨k, rfl⟩ := exists_block_of_length h
      exact .inr ⟨if_pos h, _, _, exec_encm k msg s, rfl,
        (length_encryptMessage _ msg k).trans (length_pad msg).symm⟩
    · exact .inl ⟨_, if_neg h, nofun, exec_encm_invalidKeyLength h msg s⟩
  | decm key ct outlen =>
    by_cases h : key.length = 16
    · obtain ⟨k, rfl⟩ := exists_block_of_length h
      by_cases ho : outlen ≤ (pad ct).length
      · exact .inr ⟨by simp [firstError, ho], _, _, exec_decm k ho s, rfl, length_decryptMessage _ k ho⟩
      · exact .inl ⟨.invalidOutputLength, by simp [firstError, ho], nofun,
          exec_decm_invalidOutputLength k (Nat.not_le.mp ho) s⟩
    · exact .inl ⟨_, if_neg h, nofun, exec_decm_invalidKeyLength h ct outlen s⟩
  | ark | sb | sr | mc | isb | isr | imc | krot | ksub | krc | kxr => cases hi

/-- The command decoder gives commands only (R46, R47). -/
theorem isMicro_of_decodeCommand {c : Command} {i : Instr} (h : decodeCommand c = .ok i) : i.isMicro = false := by
  unfold decodeCommand at h
  repeat' split at h
  all_goals cases h
  all_goals rfl

/-- Settles O35: an illegal opcode is rejected, and a command that decodes is rejected or answers OK with its length. -/
theorem everyCommandRespondsOnce : Obligations.EveryCommandRespondsOnce := by
  intro c s hc
  cases hd : decodeCommand c with
  | error e =>
    cases e with
    | illegalCommand => exact ⟨_, ⟨.illegalCommand, []⟩, by rw [takeCommand, hd]; rfl, rfl, fun _ => rfl, nofun⟩
    | malformedOperands => exact absurd hd hc
  | ok i =>
    have htake : takeCommand exec c s = exec i s := by rw [takeCommand, hd]
    rw [htake]
    rcases exec_command_cases i (isMicro_of_decodeCommand hd) s with ⟨e, -, he, hx⟩ | ⟨-, t, data, hx, ht, hlen⟩
    · exact ⟨_, ⟨e, []⟩, hx, rfl, fun _ => rfl, fun h => absurd h he⟩
    · refine ⟨_, ⟨.ok, data⟩, hx, by rw [respond_responses, ht], fun h => absurd rfl h, fun _ => ⟨i, rfl, ?_⟩⟩
      exact hlen.trans (by cases i <;> rfl)

end Sys2Proof.Machine
end

section
/-! PROOFS. The multiplication tables and the round constants as doublings in the field (40_gf_tables.md R63 to R65, R77). -/

namespace Sys2Proof.Machine

/-! ### Products by the constants of R65 -/

/-- The loop of R63 after `n` bits of `b`: the sum of the doublings of `a` at the set bits, and the next doubling. -/
theorem foldl_gmul_range (a b : Byte) (n : Nat) :
    (List.range n).foldl (fun (pa : Byte × Byte) i => (if b.getLsbD i then pa.1 ^^^ pa.2 else pa.1, xtime pa.2)) (0, a) =
      ((List.range n).foldl (fun p i => if b.getLsbD i then xtime^[i] a ^^^ p else p) 0, xtime^[n] a) := by
  induction n with
  | zero => rfl
  | succ n ih =>
    simp only [List.range_succ, List.foldl_append, List.foldl_cons, List.foldl_nil, ih,
      Function.iterate_succ_apply', BitVec.xor_comm]

/-- A field product is the sum of the doublings of `a` at the set bits of `b` (R63, R64). -/
theorem gmul_eq_foldl_xtime (a b : Byte) :
    gmul a b = (List.range 8).foldl (fun p i => if b.getLsbD i then xtime^[i] a ^^^ p else p) 0 := by
  rw [gmul, foldl_gmul_range]

theorem gmul_two (b : Byte) : gmul b 2 = xtime b := by
  simp [gmul_eq_foldl_xtime, List.range_succ]

theorem gmul_three (b : Byte) : gmul b 3 = xtime b ^^^ b := by
  simp [gmul_eq_foldl_xtime, List.range_succ]

theorem gmul_nine (b : Byte) : gmul b 9 = xtime (xtime (xtime b)) ^^^ b := by
  simp [gmul_eq_foldl_xtime, List.range_succ]

theorem gmul_eleven (b : Byte) : gmul b 11 = xtime (xtime (xtime b)) ^^^ xtime b ^^^ b := by
  simp [gmul_eq_foldl_xtime, List.range_succ, BitVec.xor_assoc]

theorem gmul_thirteen (b : Byte) : gmul b 13 = xtime (xtime (xtime b)) ^^^ xtime (xtime b) ^^^ b := by
  simp [gmul_eq_foldl_xtime, List.range_succ, BitVec.xor_assoc]

theorem gmul_fourteen (b : Byte) : gmul b 14 = xtime (xtime (xtime b)) ^^^ xtime (xtime b) ^^^ xtime b := by
  simp [gmul_eq_foldl_xtime, List.range_succ, BitVec.xor_assoc]

/-! ### The ROM's entries (R71 to R76), byte by byte -/

theorem standardTables_MUL2 : ∀ b, standardTables.MUL2 b = xtime b := by decide +kernel

theorem standardTables_MUL3 : ∀ b, standardTables.MUL3 b = xtime b ^^^ b := by decide +kernel

theorem standardTables_MUL9 : ∀ b, standardTables.MUL9 b = xtime (xtime (xtime b)) ^^^ b := by decide +kernel

theorem standardTables_MUL11 : ∀ b, standardTables.MUL11 b = xtime (xtime (xtime b)) ^^^ xtime b ^^^ b := by
  decide +kernel

theorem standardTables_MUL13 : ∀ b, standardTables.MUL13 b = xtime (xtime (xtime b)) ^^^ xtime (xtime b) ^^^ b := by
  decide +kernel

theorem standardTables_MUL14 :
    ∀ b, standardTables.MUL14 b = xtime (xtime (xtime b)) ^^^ xtime (xtime b) ^^^ xtime b := by
  decide +kernel

/-- Settles O7: a table's entry and the product by its constant are the same sum of doublings. -/
theorem multiplicationTablesAreFieldProducts : Obligations.MultiplicationTablesAreFieldProducts := by
  intro b
  have h2 := standardTables_MUL2 b
  have h3 := standardTables_MUL3 b
  have h9 := standardTables_MUL9 b
  have h11 := standardTables_MUL11 b
  have h13 := standardTables_MUL13 b
  have h14 := standardTables_MUL14 b
  exact ⟨⟨h2.trans (gmul_two b).symm, h3.trans (gmul_three b).symm, h9.trans (gmul_nine b).symm,
    h11.trans (gmul_eleven b).symm, h13.trans (gmul_thirteen b).symm, h14.trans (gmul_fourteen b).symm⟩,
    h2, h3, h9, h11, h13, h14⟩

/-! ### The round constants -/

/-- RCON[r] is 0x01 doubled r-1 times (R77). -/
theorem standardTables_RCON (k : Fin 10) : standardTables.RCON ⟨k⟩ = xtime^[k.val] 0x01 := by
  revert k
  decide +kernel

/-- Settles O10: one more round is one more doubling. -/
theorem roundConstantsDouble : Obligations.RoundConstantsDouble := by
  refine ⟨standardTables_RCON 0, fun r => ?_, rfl⟩
  rw [standardTables_RCON, standardTables_RCON, Fin.val_succ, Fin.val_castSucc, Function.iterate_succ_apply']

end Sys2Proof.Machine
end

section
/-! PROOFS. The key scheduler: what KROT, KSUB, KRC, KXR and EXPAND leave, byte by byte, and what they do not touch
(41_key_scheduler.md R83 to R86, R89). -/

namespace Sys2Proof

/-! ### The words of the micro-operations and their effect -/

/-- The word of a micro-operation decodes to it: a round index at each of its values (R52, R53). -/
theorem decodeUop_encode (i : Instr) (hi : i.isMicro = true) : decodeUop (encode i).op = .ok i := by
  cases i with
  | expand | encb | decb | encm | decm => cases hi
  | sb | sr | mc | isb | isr | imc | ksub => rfl
  | ark r => revert r; decide
  | krot r | krc r | kxr r => obtain ⟨k⟩ := r; revert k; decide

namespace Machine

/-- A micro-operation completes with its function of the datapath, at the standard tables, and no other change (R55). -/
theorem exec_micro_eq (i : Instr) (hi : i.isMicro = true) (s : State) :
    exec i s = .next (s.withData (microData standardTables s.data i)) := by
  rw [exec_micro i hi, execMicro_eq engine i hi, engine_tables]

/-! ### Bytes of `XK` by their address -/

theorem xkByte_eq_getElem (xk : KeyStore) {a : Nat} (h : a < 176) : xkByte xk a = xk[a] := by
  simp [xkByte, h]

theorem xkByte_of_le (xk : KeyStore) {a : Nat} (h : 176 ≤ a) : xkByte xk a = 0 := by
  simp [xkByte, Nat.not_lt.mpr h]

/-- Byte i of word j of round key r stands at 16r + 4j + i (R15, R35). -/
theorem xkByte_keyWord (xk : KeyStore) (r : Fin 11) (j : Fin 4) {i : Nat} (h : i < 4) :
    xkByte xk (16 * r.val + 4 * j.val + i) = (keyWord xk r j)[i] := by
  rw [getElem_keyWord, xkByte_eq_getElem]

/-- Byte i of round key r stands at 16r + i (R15, R34). -/
theorem xkByte_roundKey (xk : KeyStore) (r : Fin 11) {i : Nat} (h : i < 16) :
    xkByte xk (16 * r.val + i) = (roundKey xk r)[i] := by
  rw [getElem_roundKey, xkByte_eq_getElem]

/-! ### The word chain of KXR -/

/-- Each word of the new round key after the first chains on the new word before it (R86). -/
theorem keyWord_chainWords_succ (tw : Word4) (r : Round) (xk : KeyStore) (j : Fin 3) :
    keyWord (chainWords tw r xk) r.index j.succ =
      xorBytes (keyWord xk r.before j.succ) (keyWord (chainWords tw r xk) r.index j.castSucc) := by
  obtain ⟨-, h1, h2, h3⟩ := keyWord_chainWords_index tw r xk
  match j with
  | 0 => exact h1
  | 1 => exact h2
  | 2 => exact h3

/-- The first four bytes of the new round key come from `TW` (R86). -/
theorem xkByte_chainWords_first (tw : Word4) (r : Round) (xk : KeyStore) {i : Nat} (h : i < 4) :
    xkByte (chainWords tw r xk) (16 * r.index.val + i) = xkByte xk (16 * r.before.val + i) ^^^ tw[i] := by
  obtain ⟨h0, -, -, -⟩ := keyWord_chainWords_index tw r xk
  calc xkByte (chainWords tw r xk) (16 * r.index.val + i)
      = (keyWord (chainWords tw r xk) r.index 0)[i] := xkByte_keyWord _ r.index 0 h
    _ = tw[i] ^^^ (keyWord xk r.before 0)[i] := by rw [h0, getElem_xorBytes]
    _ = (keyWord xk r.before 0)[i] ^^^ tw[i] := BitVec.xor_comm _ _
    _ = xkByte xk (16 * r.before.val + i) ^^^ tw[i] := by rw [← xkByte_keyWord]; rfl

/-- Every later byte of the new round key comes from the new byte four before it (R86). -/
theorem xkByte_chainWords_later (tw : Word4) (r : Round) (xk : KeyStore) {i : Nat} (h : i < 12) :
    xkByte (chainWords tw r xk) (16 * r.index.val + (i + 4)) =
      xkByte xk (16 * r.before.val + (i + 4)) ^^^ xkByte (chainWords tw r xk) (16 * r.index.val + i) := by
  obtain ⟨j, k, hk, rfl⟩ : ∃ (j : Fin 3) (k : Nat), k < 4 ∧ i = 4 * j.val + k :=
    ⟨⟨i / 4, by omega⟩, i % 4, by omega, by simp only; omega⟩
  have hword := congrArg (fun w : Word4 => w[k]) (keyWord_chainWords_succ tw r xk j)
  simp only [getElem_xorBytes, ← xkByte_keyWord, Fin.val_succ, Fin.val_castSucc] at hword
  have haddr (n : Nat) : 16 * n + (4 * j.val + k + 4) = 16 * n + 4 * (j.val + 1) + k := by omega
  rw [haddr, haddr, ← Nat.add_assoc, hword]

/-- KXR leaves every byte outside round key r (R86). -/
theorem xkByte_chainWords_other (tw : Word4) (r : Round) (xk : KeyStore) {a : Nat} (h : a / 16 ≠ r.toNat) :
    xkByte (chainWords tw r xk) a = xkByte xk a := by
  by_cases ha : a < 176
  · have hr : (⟨a / 16, by omega⟩ : Fin 11) ≠ r.index := fun he => h (congrArg Fin.val he)
    have hbyte (x : KeyStore) : xkByte x a = (roundKey x ⟨a / 16, by omega⟩)[a % 16] := by
      rw [← xkByte_roundKey, Nat.div_add_mod]
    rw [hbyte, hbyte, roundKey_chainWords_other tw r xk _ hr]
  · rw [xkByte_of_le _ (by omega), xkByte_of_le _ (by omega)]

/-! ### The statements -/

/-- Settles O14: the first four bytes chain on `TW`, the others on the byte four before them. -/
theorem kxrChainsTheRoundKey : Obligations.KxrChainsTheRoundKey := by
  intro r s
  refine ⟨decodeUop_encode (.kxr r) rfl, _, exec_micro_eq (.kxr r) rfl s, rfl, fun i hi => ?_, fun a ha => ?_⟩
  · by_cases h : i < 4
    · rw [dif_pos h]
      exact xkByte_chainWords_first s.TW r s.XK h
    · rw [dif_neg h]
      obtain ⟨i, rfl⟩ := Nat.exists_eq_add_of_le' (Nat.not_lt.mp h)
      exact xkByte_chainWords_later s.TW r s.XK (by omega)
  · exact xkByte_chainWords_other s.TW r s.XK (by omega)

/-- Settles O28: the key expansion and the response are those of the command's two cases, by the length of the key. -/
theorem expandCommand : Obligations.ExpandCommand :=
  ⟨fun _ => rfl, fun s => ⟨fun key => exec_expand key s, fun _ h => exec_expand_invalidKeyLength h s⟩⟩

/-- Settles O11: the rotated word is word 3 of round key r-1. -/
theorem krotRotatesTheLastWord : Obligations.KrotRotatesTheLastWord := by
  intro r s
  refine ⟨decodeUop_encode (.krot r) rfl, _, exec_micro_eq (.krot r) rfl s, rfl, ?_⟩
  have hbyte (i : Nat) (h : i < 4) : xkByte s.XK (16 * (r.toNat - 1) + 12 + i) = (keyWord s.XK r.before 3)[i] :=
    xkByte_keyWord s.XK r.before 3 h
  rw [hbyte 1, hbyte 2, hbyte 3, hbyte 0]
  rfl

/-- Settles O12: `SubWord` is the S-box at each index. -/
theorem ksubSubstitutesTheTemporaryWord : Obligations.KsubSubstitutesTheTemporaryWord :=
  ⟨decodeUop_encode .ksub rfl, fun s => ⟨_, exec_micro_eq .ksub rfl s, rfl,
    fun i => getElem_tabulate _ i.val i.isLt⟩⟩

/-- Settles O13: bytes 1 to 3 of the new word are the old ones. -/
theorem krcAddsTheRoundConstant : Obligations.KrcAddsTheRoundConstant := by
  intro r s
  refine ⟨decodeUop_encode (.krc r) rfl, _, exec_micro_eq (.krc r) rfl s, rfl, rfl, fun i hi => ?_⟩
  match i with
  | 0 => exact absurd rfl hi
  | 1 | 2 | 3 => rfl

end Machine

end Sys2Proof
end

section
/-! PROOFS. The forward transform: what ARK, SB, SR and MC leave in `ST`, in bytes and in the matrix view, with ISB and
ISR, and what ENCB answers (42_forward_transform.md R93 to R96, R99; 43_inverse_transform.md R101, R102). -/

namespace Sys2Proof.Machine

/-! ### The matrix view (R8, R12) -/

/-- Byte `4*col + row` of a string made byte by byte stands at row `row` of column `col`. -/
@[simp] theorem matrixByte_tabulate (f : Fin 16 → Byte) (row col : Fin 4) :
    matrixByte (tabulate f) row col = f ⟨4 * col.val + row.val, by omega⟩ := by
  simp [matrixByte]

/-- SR rotates row `row` left by `row` (R95). -/
theorem matrixByte_shiftRows (b : Block) (row col : Fin 4) :
    matrixByte (shiftRows b) row col = matrixByte b row (col + row) := by
  have hindex : (4 * col.val + row.val + 4 * ((4 * col.val + row.val) % 4)) % 16 =
      4 * ((col.val + row.val) % 4) + row.val := by omega
  rw [shiftRows, matrixByte_tabulate]
  simp only [hindex, matrixByte, Fin.val_add]

/-- ISR rotates row `row` right by `row` (R102). -/
theorem matrixByte_invShiftRows (b : Block) (row col : Fin 4) :
    matrixByte (invShiftRows b) row col = matrixByte b row (col - row) := by
  have hindex : (4 * col.val + row.val + 16 - 4 * ((4 * col.val + row.val) % 4)) % 16 =
      4 * ((4 - row.val + col.val) % 4) + row.val := by omega
  rw [invShiftRows, matrixByte_tabulate]
  simp only [hindex, matrixByte, Fin.sub_def]

/-- A column transform makes column `col` from the four bytes of column `col` (R12). -/
theorem matrixByte_mapColumns (f : Byte → Byte → Byte → Byte → Word4) (b : Block) (row col : Fin 4) :
    matrixByte (mapColumns f b) row col =
      (f (matrixByte b 0 col) (matrixByte b 1 col) (matrixByte b 2 col) (matrixByte b 3 col))[row] := by
  have hcol : (4 * col.val + row.val) / 4 = col.val := by omega
  have hrow : (4 * col.val + row.val) % 4 = row.val := by omega
  simp only [mapColumns, matrixByte_tabulate, hcol, hrow, Fin.eta, Fin.getElem_fin]

/-! ### The row shifts as byte permutations -/

/-- Where byte i of `SR` comes from: the table `p` of R95. -/
def shiftRowsSource : Vector (Fin 16) 16 := #v[0, 5, 10, 15, 4, 9, 14, 3, 8, 13, 2, 7, 12, 1, 6, 11]

/-- Where byte i of `ISR` comes from: the table `q` of R102. -/
def invShiftRowsSource : Vector (Fin 16) 16 := #v[0, 13, 10, 7, 4, 1, 14, 11, 8, 5, 2, 15, 12, 9, 6, 3]

theorem getElem_shiftRows (b : Block) (i : Fin 16) : (shiftRows b)[i] = b[shiftRowsSource[i]] := by
  have hsource : ∀ j : Fin 16, (j.val + 4 * (j.val % 4)) % 16 = shiftRowsSource[j].val := by decide
  simp only [shiftRows, Fin.getElem_fin, getElem_tabulate, hsource]

theorem getElem_invShiftRows (b : Block) (i : Fin 16) : (invShiftRows b)[i] = b[invShiftRowsSource[i]] := by
  have hsource : ∀ j : Fin 16, (j.val + 16 - 4 * (j.val % 4)) % 16 = invShiftRowsSource[j].val := by decide
  simp only [invShiftRows, Fin.getElem_fin, getElem_tabulate, hsource]

/-! ### The statements -/

/-- Settles O29: the command's three cases, by the length of the block and `KVALID`. -/
theorem encbCommand : Obligations.EncbCommand :=
  ⟨fun _ => rfl, fun _ => ⟨fun b hk => blockWith_keyValid (sched := .ENC) (by decide) b hk,
    fun b hk => blockWith_keyNotExpanded .ENC b hk, fun _ h => blockWith_invalidBlockAlignment .ENC h _⟩⟩

/-- Settles O15: the second ARK cancels the round key that the first one added. -/
theorem arkAddsTheRoundKey : Obligations.ArkAddsTheRoundKey := by
  intro r s
  refine ⟨decodeUop_encode (.ark r) rfl, _, exec_micro_eq (.ark r) rfl s, rfl, fun i => ?_, ?_⟩
  · rw [xkByte_roundKey _ _ i.isLt]
    exact getElem_xorBytes s.ST (roundKey s.XK r) i.val i.isLt
  · rw [exec_micro_eq (.ark r) rfl]
    exact congrArg (fun st => Host.Outcome.next { s with ST := st }) (xorBytes_cancel_right s.ST (roundKey s.XK r))

/-- Settles O16: both are one table lookup at each index. -/
theorem substitutionsActByteByByte : Obligations.SubstitutionsActByteByByte :=
  ⟨decodeUop_encode .sb rfl, decodeUop_encode .isb rfl, fun s =>
    ⟨⟨_, exec_micro_eq .sb rfl s, rfl, fun i => getElem_tabulate _ i.val i.isLt⟩,
      ⟨_, exec_micro_eq .isb rfl s, rfl, fun i => getElem_tabulate _ i.val i.isLt⟩⟩⟩

/-- Settles O17: the rotations in the matrix view, and the tables of byte positions. -/
theorem rowShiftsRotateTheRows : Obligations.RowShiftsRotateTheRows :=
  ⟨decodeUop_encode .sr rfl, decodeUop_encode .isr rfl, fun s =>
    ⟨⟨_, exec_micro_eq .sr rfl s, rfl, matrixByte_shiftRows s.ST, getElem_shiftRows s.ST⟩,
      ⟨_, exec_micro_eq .isr rfl s, rfl, matrixByte_invShiftRows s.ST, getElem_invShiftRows s.ST⟩⟩⟩

/-- Settles O18: row by row, the new column is `mixColumn` of the old one. -/
theorem mcMixesEachColumn : Obligations.McMixesEachColumn :=
  ⟨decodeUop_encode .mc rfl, fun s => ⟨_, exec_micro_eq .mc rfl s, rfl, fun col =>
    have hrow (row : Fin 4) := matrixByte_mapColumns (mixColumn standardTables) s.ST row col
    ⟨hrow 0, hrow 1, hrow 2, hrow 3⟩⟩⟩

end Sys2Proof.Machine
end

section
/-! PROOFS. The inverse transform: what IMC leaves in `ST` and what DECB answers (43_inverse_transform.md R103, R107). -/

namespace Sys2Proof.Machine

/-- Settles O30: the block command at the schedule `DEC`, in its three cases by the length of the block and `KVALID`. -/
theorem decbCommand : Obligations.DecbCommand :=
  ⟨fun _ => rfl, fun _ => ⟨fun b hk => blockWith_keyValid (sched := .DEC) (by decide) b hk,
    fun b hk => blockWith_keyNotExpanded .DEC b hk, fun _ h => blockWith_invalidBlockAlignment .DEC h _⟩⟩

/-- Settles O19: row by row, the new column is `invMixColumn` of the old one. -/
theorem imcMixesEachColumnInversely : Obligations.ImcMixesEachColumnInversely :=
  ⟨decodeUop_encode .imc rfl, fun s => ⟨_, exec_micro_eq .imc rfl s, rfl, fun col =>
    have hrow (row : Fin 4) := matrixByte_mapColumns (invMixColumn standardTables) s.ST row col
    ⟨hrow 0, hrow 1, hrow 2, hrow 3⟩⟩⟩

end Sys2Proof.Machine
end

section
/-! PROOFS. Padding to whole chunks: what it leaves alone, the padded length, and padding twice (44_block_driver.md
R109). -/

namespace Sys2Proof.Machine

/-- A message of whole chunks is its own padding (R109). -/
theorem pad_of_mod_eq_zero {m : List Byte} (h : m.length % 16 = 0) : pad m = m := by
  simp [pad, h]

/-- The padded length is the length rounded up to a multiple of 16 (R109). -/
theorem length_pad_eq_ceil (m : List Byte) : (pad m).length = 16 * ((m.length + 15) / 16) := by
  rw [pad, List.length_append, List.length_replicate]
  omega

theorem pad_pad (m : List Byte) : pad (pad m) = pad m :=
  pad_of_mod_eq_zero (by rw [length_pad, Nat.mul_mod_right])

/-- Settles O44: the number of zero bytes is R109's p. -/
theorem paddingLaws : Obligations.PaddingLaws :=
  ⟨fun m => ⟨(16 - m.length % 16) % 16, by omega, rfl, by omega, length_pad_eq_ceil m, pad_pad m⟩, by decide⟩

end Sys2Proof.Machine
end

section
/-! PROOFS. ENCM and DECM: what they answer, the key they leave, and the bound `MAXLEN` on an engine with any parameters
(44_block_driver.md R113 to R115, R120). -/

namespace Sys2Proof.Machine

/-- Settles O31: the command's two cases, by the length of the key. -/
theorem encmCommand : Obligations.EncmCommand :=
  fun s msg => ⟨fun _ => rfl, fun key => exec_encm key msg s, fun _ h => exec_encm_invalidKeyLength h msg s⟩

/-- Settles O32: the command's three cases, by the length of the key and then by the output length. -/
theorem decmCommand : Obligations.DecmCommand :=
  fun s ct outlen => ⟨fun _ => rfl, fun key ho => exec_decm key ho s,
    fun key ho => exec_decm_invalidOutputLength key ho s, fun _ h => exec_decm_invalidKeyLength h ct outlen s⟩

/-! ### The key that a message command leaves -/

/-- In a state that holds an expanded key, the block commands transform under it (R99, R107). -/
theorem blockCommands_use_expanded_key {key : Block} {t : State}
    (h : t.XK = expand standardTables key ∧ t.KVALID = true) (b : Block) :
    (∃ u, exec (.encb b.toList) t = .next u ∧ u.ST = encrypt standardTables b (expand standardTables key)) ∧
    ∃ u, exec (.decb b.toList) t = .next u ∧ u.ST = decrypt standardTables b (expand standardTables key) := by
  obtain ⟨hxk, hvalid⟩ := h
  rw [← hxk]
  exact ⟨⟨_, blockWith_keyValid (sched := .ENC) (by decide) b hvalid, rfl⟩,
    ⟨_, blockWith_keyValid (sched := .DEC) (by decide) b hvalid, rfl⟩⟩

/-- Settles O38: all three commands leave the state `keyed key`, but for `ST` and the response. -/
theorem messageCommandsLeaveTheirKey : Obligations.MessageCommandsLeaveTheirKey := by
  intro key data outlen s te tm td ho he hm hd
  have hkey : ∀ t ∈ [te, tm, td], t.XK = expand standardTables key ∧ t.KVALID = true := by
    cases (exec_expand key s).symm.trans he
    cases (exec_encm key data s).symm.trans hm
    cases (exec_decm key ho s).symm.trans hd
    simp [keyed]
  exact ⟨hkey, fun b t ht => blockCommands_use_expanded_key (hkey t ht) b⟩

/-! ### The bound `MAXLEN` -/

theorem admits_iff (c : Config) (len : Nat) : c.admits len = true ↔ ∀ m, c.maxLen = some m → len ≤ m := by
  cases h : c.maxLen <;> simp [Config.admits, h]

/-- The bound is a multiple of 16, so the next multiple of 16 after an admitted length is admitted (R113). -/
theorem admits_pad {c : Config} {m : List Byte} (hc : c.legal = true) (hm : c.admits m.length = true) :
    c.admits (pad m).length = true := by
  rw [admits_iff] at hm ⊢
  intro bound hb
  have hle := hm bound hb
  have hmod : bound % 16 = 0 := by simpa [Config.legal, hb] using hc
  rw [length_pad_eq_ceil]
  omega

theorem expandKey_completes (c : Config) (key : Block) (s : State) : ∃ t, expandKey c key s = .next t ∧ Idle t := by
  rw [expandKey, run_eq_foldl, andThen_next]
  exact ⟨_, rfl, rfl, rfl⟩

/-- A key expansion and the chunk loop after it complete with any parameters, whatever `f` then responds (R114,
R115). -/
theorem expandKey_transformChunks_completes (c : Config) {sched : Schedule} (hs : sched ≠ .KS) (key : Block)
    (p : List Byte) (s : State) (f : List Byte × State → State) :
    ∃ t, (andThen (expandKey c key s) fun t =>
      andThen (transformChunks c sched p (List.finRange _) [] t) fun r => .next (f r)) = .next t := by
  obtain ⟨t, ht, hidle⟩ := expandKey_completes c key s
  rw [ht, andThen_next, transformChunks_eq c sched hs _ _ _ _ hidle, andThen_next]
  exact ⟨_, rfl⟩

section Refused
variable {c : Config} {data : List Byte} (h : c.admits data.length = false) (key : List Byte) (s : State)
include h

theorem encmWith_refused : encmWith c key data s = .refused .messageTooLong := by
  simp [encmWith, h]

theorem decmWith_refused (outlen : Nat) : decmWith c key data outlen s = .refused .messageTooLong := by
  simp [decmWith, h]

end Refused

section Admitted
variable {c : Config} {data : List Byte} (h : c.admits data.length = true) (key : List Byte) (s : State)
include h

/-- An admitted ENCM completes: with the error of a malformed key, or after its chunk loop. -/
theorem encmWith_completes : ∃ t, encmWith c key data s = .next t := by
  rw [encmWith, if_pos h]
  cases block16 key with
  | none => exact ⟨_, rfl⟩
  | some k => exact expandKey_transformChunks_completes c (by decide) k _ s _

/-- An admitted DECM completes: with the error of a malformed key or output length, or after its chunk loop. -/
theorem decmWith_completes (outlen : Nat) : ∃ t, decmWith c key data outlen s = .next t := by
  rw [decmWith, if_pos h]
  cases block16 key with
  | none => exact ⟨_, rfl⟩
  | some k =>
    by_cases ho : outlen > (pad data).length
    · exact ⟨_, if_pos ho⟩
    · obtain ⟨t, ht⟩ := expandKey_transformChunks_completes c (show Schedule.DEC ≠ .KS by decide) k (pad data) s
        fun r => respond .ok (r.1.take outlen) r.2
      exact ⟨t, (if_neg ho).trans ht⟩

end Admitted

/-- Settles O39: each clause is one side of the test `len <= MAXLEN`. -/
theorem maxLenBoundsTheMessages : Obligations.MaxLenBoundsTheMessages := by
  intro c key data outlen s
  refine ⟨fun m hm hlong => ?_, fun hshort => ?_, admits_pad⟩
  · have h : c.admits data.length = false :=
      Bool.eq_false_iff.mpr fun ha => Nat.not_le.mpr hlong ((admits_iff c _).mp ha m hm)
    exact ⟨encmWith_refused h key s, decmWith_refused h key s outlen, h, h⟩
  · have h : c.admits data.length = true := (admits_iff c _).mpr hshort
    exact ⟨encmWith_completes h key s, decmWith_completes h key s outlen, h, h⟩

end Sys2Proof.Machine
end

section
/-! PROOFS. Illegal opcodes, the order of a command's checks, and what a failed command leaves (R126 to R128). -/

namespace Sys2Proof.Machine

/-- The command decoder finds a command illegal by its opcode alone (R127). -/
theorem decodeCommand_eq_illegalCommand_iff (c : Command) :
    decodeCommand c = .error .illegalCommand ↔ c.op.toNat = 0 ∨ 6 ≤ c.op.toNat := by
  unfold decodeCommand
  split
  case h_6 h1 h2 h3 h4 h5 =>
    rw [imp_false] at h1 h2 h3 h4 h5
    exact iff_of_true rfl (by omega)
  all_goals
    rename_i hop
    refine iff_of_false ?_ (by omega)
    split <;> nofun

theorem takeCommand_of_illegalCommand {c : Command} (h : decodeCommand c = .error .illegalCommand) (s : State) :
    takeCommand exec c s = rejected .illegalCommand s := by
  rw [takeCommand, h, raise_eq_rejected]

theorem takeCommand_of_ok {c : Command} {i : Instr} (h : decodeCommand c = .ok i) (s : State) :
    takeCommand exec c s = exec i s := by
  rw [takeCommand, h]

/-- How a command that ends can end: with an error and no other change, or with the response OK (R49, R126). -/
theorem takeCommand_next_cases {c : Command} {s t : State} (h : takeCommand exec c s = .next t) :
    (∃ e, t = { s with responses := s.responses ++ [⟨e, []⟩] }) ∨
    ∃ data, t.responses = s.responses ++ [⟨.ok, data⟩] := by
  cases hd : decodeCommand c with
  | error e =>
    cases e with
    | illegalCommand =>
      rw [takeCommand_of_illegalCommand hd, rejected] at h
      cases h
      exact .inl ⟨_, rfl⟩
    | malformedOperands =>
      rw [takeCommand, hd] at h
      cases h
  | ok i =>
    rw [takeCommand_of_ok hd] at h
    rcases exec_command_cases i (isMicro_of_decodeCommand hd) s with ⟨e, -, -, hx⟩ | ⟨-, u, data, hx, hu, -⟩
    · cases hx.symm.trans h
      exact .inl ⟨e, rfl⟩
    · cases hx.symm.trans h
      exact .inr ⟨data, by rw [respond_responses, hu]⟩

/-- A started schedule runs to its end without an error and without a response (R126 (f)). -/
theorem run_completes_without_response (c : Config) (sched : Schedule) (s : State) :
    ∃ t, run c sched s = .next t ∧ t.responses = s.responses :=
  ⟨_, run_eq_foldl c sched s, rfl⟩

/-- Settles O26: the decoder's verdict rests on the opcode alone, and the host port rejects what it finds illegal. -/
theorem illegalOpcodesAreAnswered : Obligations.IllegalOpcodesAreAnswered := by
  intro s op operands
  have hiff := decodeCommand_eq_illegalCommand_iff ⟨op, operands⟩
  refine ⟨fun hop => takeCommand_of_illegalCommand (hiff.mpr hop) s, fun hlo hhi hill => ?_⟩
  have hop : op.toNat = 0 ∨ 6 ≤ op.toNat := hiff.mp hill
  omega

/-- Settles O33: each command by its first failing check, and the illegal opcodes by O26. -/
theorem errorsAreReportedInOrder : Obligations.ErrorsAreReportedInOrder := by
  refine ⟨fun i s hi => ?_, fun op operands s hop => (illegalOpcodesAreAnswered s op operands).1 hop⟩
  rcases exec_command_cases i hi s with ⟨e, he, -, hx⟩ | ⟨hnone, u, data, hx, hu, -⟩
  · exact ⟨fun e' he' => Option.some.inj (he.symm.trans he') ▸ hx, fun hnone => nomatch he.symm.trans hnone⟩
  · exact ⟨fun e he => (nomatch hnone.symm.trans he), fun _ => ⟨_, data, hx, by rw [respond_responses, hu]⟩⟩

/-- Settles O34: a command ends as an error ends or with OK, the one response being the last of the history; and a
schedule is a fold of functions on the datapath. -/
theorem failedCommandsChangeNothing : Obligations.FailedCommandsChangeNothing := by
  refine ⟨fun c s t r ht hr hne => ?_, run_completes_without_response engine⟩
  rcases takeCommand_next_cases ht with ⟨e, rfl⟩ | ⟨data, hok⟩
  · obtain rfl : ⟨e, []⟩ = r := by simpa using hr
    exact ⟨rfl, rfl⟩
  · obtain rfl : ⟨.ok, data⟩ = r := by simpa using hok.symm.trans hr
    exact absurd rfl hne

end Sys2Proof.Machine
end

section
/-! PROOFS. The two decoders and the encoder: each instruction has one word, and a word that decodes is the word of its
instruction (30_encoding.md R46 to R60). -/

namespace Sys2Proof

theorem encode_operands_of_isMicro {i : Instr} (hi : i.isMicro = true) : (encode i).operands = [] := by
  cases i with
  | expand | encb | decb | encm | decm => cases hi
  | ark | sb | sr | mc | isb | isr | imc | krot | ksub | krc | kxr => rfl

theorem decodeCommand_encode {i : Instr} (hi : i.isMicro = false) : decodeCommand (encode i) = .ok i := by
  cases i with
  | expand | encb | decb | encm | decm => rfl
  | ark | sb | sr | mc | isb | isr | imc | krot | ksub | krc | kxr => cases hi

/-- What the micro-operation decoder reads from a byte is a micro-operation, and the byte is its word (R51 to
R53, R57). -/
theorem encode_of_decodeUop {u : Byte} {i : Instr} (h : decodeUop u = .ok i) :
    i.isMicro = true ∧ encode i = ⟨u, []⟩ := by
  have hbyte : ∀ v : Byte, ∀ j ∈ (decodeUop v).toOption, j.isMicro = true ∧ encode j = ⟨v, []⟩ := by decide +kernel
  exact hbyte u i (by rw [h]; rfl)

/-- A command that decodes is the one word of its instruction: for each opcode, with the operands of its kind (R47,
R60). -/
theorem encode_of_decodeCommand {c : Command} {i : Instr} (h : decodeCommand c = .ok i) : encode i = c := by
  obtain ⟨op, operands⟩ := c
  unfold decodeCommand at h
  split at h
  case h_6 => cases h
  all_goals
    rename_i hop
    split at h
    · rename_i hoperands
      cases h
      exact congrArg₂ Command.mk (BitVec.eq_of_toNat_eq hop.symm) hoperands.symm
    · cases h

namespace Machine

/-- Settles O1: for the micro-operations with a round index at each of its values, for the commands by the opcode. -/
theorem encodedInstructionsDecodeBack : Obligations.EncodedInstructionsDecodeBack :=
  fun i => ⟨fun hi => ⟨encode_operands_of_isMicro hi, decodeUop_encode i hi⟩, decodeCommand_encode⟩

/-- Settles O2: each decoder by itself. -/
theorem decodedWordsAreTheEncodings : Obligations.DecodedWordsAreTheEncodings :=
  ⟨fun _ _ => encode_of_decodeUop, fun _ _ h => ⟨isMicro_of_decodeCommand h, encode_of_decodeCommand h⟩⟩

/-- Settles O4: the legal words are encodings, and the others fail the check of their code, round index or opcode. -/
theorem writtenWordsDecode : Obligations.WrittenWordsDecode :=
  ⟨decodeUop_encode (.ark 10) rfl, decodeUop_encode .sb rfl, decodeUop_encode .imc rfl,
    decodeUop_encode (.krot ⟨0⟩) rfl, decodeUop_encode .ksub rfl, decodeUop_encode (.krc ⟨8⟩) rfl,
    decodeUop_encode (.kxr ⟨9⟩) rfl, rfl, rfl, rfl, rfl,
    decodeCommand_encode (i := .decm [1] [2, 3] 4) rfl, rfl⟩

end Machine

end Sys2Proof
end

section
/-! PROOFS. The host port: which event an idle engine takes and what it does with it (20_memory.md R41, 30_encoding.md R48,
70_reset_and_hazards.md R141). -/

namespace Sys2Proof.Machine

theorem step_idle_wait {s : State} (hrun : s.RUN = none) (hp : s.pending = []) : step s = .next s := by
  rw [step_idle hrun, takeEvent, hp]

theorem step_idle_reset {s : State} {rest : List HostEvent} (hrun : s.RUN = none) (hp : s.pending = .reset :: rest) :
    step s = .next (resetEvent { s with pending := rest }) := by
  rw [step_idle hrun, takeEvent, hp]

theorem step_idle_command {s : State} {c : Command} {rest : List HostEvent} (hrun : s.RUN = none)
    (hp : s.pending = .command c :: rest) : step s = takeCommand exec c { s with pending := rest } := by
  rw [step_idle hrun, takeEvent, hp]

theorem takeCommand_of_malformedOperands {c : Command} (h : decodeCommand c = .error .malformedOperands) (s : State) :
    takeCommand exec c s = .refused .malformedCommand := by
  rw [takeCommand, h]

/-- Settles O25: the host port does with a command what it decodes to. -/
theorem stepExecutesTheDecodedCommand : Obligations.StepExecutesTheDecodedCommand :=
  fun _ _ _ hrun hp =>
    ⟨fun _ hd => (step_idle_command hrun hp).trans (takeCommand_of_ok hd _), step_idle_command hrun hp⟩

/-- Settles O48: the step is the RESET event. -/
theorem resetEventClearsTheControlState : Obligations.ResetEventClearsTheControlState :=
  fun _ _ hrun hp => ⟨_, step_idle_reset hrun hp, rfl, rfl, rfl, rfl, rfl⟩

/-- Settles O49: with no event the engine waits, and with `KVALID` 0 a block command is rejected. -/
theorem resetStateWaitsForAKey : Obligations.ResetStateWaitsForAKey :=
  ⟨rfl, rfl, step_idle_wait rfl rfl,
    fun b => ⟨blockWith_keyNotExpanded .ENC b rfl, blockWith_keyNotExpanded .DEC b rfl⟩⟩

/-- Settles O27: a command with a legal opcode either is the word of what it decodes to or has malformed operands. -/
theorem malformedCommandsAreRefused : Obligations.MalformedCommandsAreRefused := by
  intro s op operands rest hrun hpending hlo hhi hnone
  rw [step_idle_command hrun hpending]
  cases hd : decodeCommand ⟨op, operands⟩ with
  | ok i => exact absurd (encode_of_decodeCommand hd) (hnone i)
  | error e =>
    cases e with
    | illegalCommand =>
      have hop : op.toNat = 0 ∨ 6 ≤ op.toNat := (decodeCommand_eq_illegalCommand_iff _).mp hd
      omega
    | malformedOperands => exact takeCommand_of_malformedOperands hd _

end Sys2Proof.Machine
end

section
/-! PROOFS. The sequencer, one turn at a time: a turn runs the word at `UPC`, the machine steps of a started schedule are
the turns of `run(S)`, and a placed micro-operation word runs at its place in the ROM (30_encoding.md R55, R59). -/

namespace Sys2Proof.Machine

/-! ### One turn -/

/-- Before the end a turn runs the micro-operation at `UPC` and adds 1 to `UPC` (R55). -/
theorem seqStep_of_lt (c : Config) (sched : Schedule) {s : State} (h : s.UPC.val < 40) :
    ∃ i, i.isMicro = true ∧ seqStep (execMicro c) sched s =
      .next { s.withData (microData c.tables s.data i) with UPC := ⟨s.UPC.val + 1, by omega⟩ } := by
  have hlen : s.UPC.val < (scheduleInstrs sched).length := by rwa [scheduleInstrs_length]
  have hmicro := scheduleInstrs_isMicro sched _ (List.getElem_mem hlen)
  refine ⟨_, hmicro, ?_⟩
  rw [seqStep, dif_pos h, decodeUop_romWord sched _ h]
  simp only [execMicro_eq c _ hmicro, andThen_next]

/-- At 40 a turn ends the schedule (R55). -/
theorem seqStep_of_eq (ex : Instr → State → Host.Outcome State Fault Refusal) (sched : Schedule) {s : State}
    (h : s.UPC.val = 40) : seqStep ex sched s = .next (seqEnd s) :=
  dif_neg (by omega)

/-- A turn that runs the word `i` with what executes it (R55). -/
theorem seqStep_of_decodeUop (ex : Instr → State → Host.Outcome State Fault Refusal) {sched : Schedule} {s : State}
    {i : Instr} (h : s.UPC.val < 40) (hd : decodeUop (romWord sched s.UPC.val) = .ok i) :
    seqStep ex sched s = andThen (ex i s) fun t => .next { t with UPC := ⟨s.UPC.val + 1, by omega⟩ } := by
  rw [seqStep, dif_pos h, hd]

/-- Settles O22: the two sides of the test `UPC < 40`. -/
theorem stepRunsTheWordAtUpc : Obligations.StepRunsTheWordAtUpc := by
  intro s sched hrun
  refine ⟨fun i h hd => ?_, fun h => ?_⟩
  · rw [step_running hrun, seqStep_of_decodeUop exec h hd]
  · rw [step_running hrun, seqStep_of_eq exec sched h, seqEnd_eq]

/-! ### From a turn to the end of the schedule -/

theorem step_running_eq {s : State} {sched : Schedule} (h : s.RUN = some sched) :
    step s = seqStep (execMicro engine) sched s := by
  rw [step_running h, seqStep_exec]

/-- From any place of a schedule the steps to its end are the turns of `run(S)`. -/
theorem stepN_eq_seqSteps {sched : Schedule} (n : Nat) {s : State} (hrun : s.RUN = some sched)
    (hn : s.UPC.val + n = 40) : stepN (n + 1) s = seqSteps (execMicro engine) sched (n + 1) s := by
  induction n generalizing s with
  | zero => rw [stepN, seqSteps, step_running_eq hrun, seqStep_of_eq _ _ hn]; rfl
  | succ n ih =>
    obtain ⟨i, -, hturn⟩ := seqStep_of_lt engine sched (s := s) (by omega)
    rw [stepN, seqSteps, step_running_eq hrun, hturn, andThen_next, andThen_next]
    exact ih hrun (by simp only; omega)

/-- Settles O24: both are the 41 turns from `UPC = 0`. -/
theorem commandsRunTheSameSteps : Obligations.CommandsRunTheSameSteps :=
  fun _ _ => stepN_eq_seqSteps 40 rfl rfl

/-- Settles O23: the turns left are a fold on the datapath and the end of the schedule. -/
theorem startedScheduleRunsToItsEnd : Obligations.StartedScheduleRunsToItsEnd := by
  intro s sched hrun
  have hn : s.UPC.val + (40 - s.UPC.val) = 40 := by omega
  have hcount : 41 - s.UPC.val = 40 - s.UPC.val + 1 := by omega
  rw [hcount, stepN_eq_seqSteps _ hrun hn, seqSteps_eq_foldl engine sched _ s hn]
  exact ⟨_, rfl, ⟨rfl, rfl⟩, rfl⟩

/-! ### Placed words -/

/-- A place of the ROM that `romFind` gives is inside its schedule and holds the word. -/
theorem romFind_eq_some {u : Byte} {p : Schedule × Fin 41} (h : romFind u = some p) :
    p.2.val < 40 ∧ romWord p.1 p.2.val = u := by
  have hmem := List.mem_of_find?_eq_some h
  simp only [romPositions, List.mem_flatMap, List.mem_map] at hmem
  obtain ⟨sched, -, v, -, rfl⟩ := hmem
  exact ⟨v.isLt, by simpa using List.find?_some h⟩

/-- Every micro-operation word stands in the ROM (R54). -/
theorem romFind_isSome {u : Byte} {i : Instr} (h : decodeUop u = .ok i) : ∃ p, romFind u = some p := by
  have hall : ∀ v : Byte, (decodeUop v).toOption.isSome → (romFind v).isSome := by decide +kernel
  exact Option.isSome_iff_exists.mp (hall u (by rw [h]; rfl))

/-- A byte that is no micro-operation word stands nowhere in the ROM (R54, R56). -/
theorem romFind_eq_none {u : Byte} (h : ∀ i, decodeUop u ≠ .ok i) : romFind u = none := by
  cases hf : romFind u with
  | none => rfl
  | some p =>
    obtain ⟨hlt, hword⟩ := romFind_eq_some hf
    exact absurd (hword ▸ decodeUop_romWord p.1 _ hlt) (h _)

/-- What the opcode table's reading of a byte comes from: the one decoder or the other. -/
theorem decodeTableWord_eq_some {nbits w : Nat} {i : Instr} (h : decodeTableWord nbits w = some i) :
    decodeUop (tableByte nbits w) = .ok i ∨
    (∀ j, decodeUop (tableByte nbits w) ≠ .ok j) ∧
      decodeCommand ⟨tableByte nbits w, zeroOperands (tableByte nbits w)⟩ = .ok i := by
  unfold decodeTableWord at h
  simp only at h
  split at h
  · rename_i hd
    cases h
    exact .inl hd
  · rename_i e hd
    refine .inr ⟨fun j hj => (nomatch hd.symm.trans hj), ?_⟩
    split at h
    · rename_i hd'
      cases h
      exact hd'
    · cases h

/-- The step after a micro-operation word was placed runs it at its place in the ROM. -/
theorem step_placeWord_of_decodeUop {u : Byte} {i : Instr} (h : decodeUop u = .ok i) (s : State) :
    ∃ (sched : Schedule) (v : Fin 40), step (placeWord u s) =
      andThen (exec i { s with RUN := some sched, UPC := v.castSucc }) fun t => .next { t with UPC := v.succ } := by
  obtain ⟨⟨sched, v⟩, hf⟩ := romFind_isSome h
  obtain ⟨hlt, hword⟩ := romFind_eq_some hf
  refine ⟨sched, ⟨v.val, hlt⟩, ?_⟩
  rw [placeWord, hf, step_running rfl]
  exact seqStep_of_decodeUop exec hlt (hword ▸ h)

/-- The step after an opcode was placed takes it as a command. -/
theorem step_placeWord_of_decodeCommand {u : Byte} {i : Instr} (hu : ∀ j, decodeUop u ≠ .ok j)
    (h : decodeCommand ⟨u, zeroOperands u⟩ = .ok i) (s : State) :
    step (placeWord u s) = exec i { s with RUN := none, UPC := 0 } := by
  rw [placeWord, romFind_eq_none hu, step_idle rfl]
  exact takeCommand_of_ok h _

/-- Settles O57: a micro-operation word is placed in the sequencer, any other byte with the host. -/
theorem placedTableWordRuns : Obligations.PlacedTableWordRuns := by
  intro s w i h
  rcases decodeTableWord_eq_some h with hd | ⟨hu, hd⟩
  · refine ⟨fun hi => ?_, fun _ => step_placeWord_of_decodeUop hd s⟩
    rw [(encode_of_decodeUop hd).1] at hi
    cases hi
  · refine ⟨fun _ => step_placeWord_of_decodeCommand hu hd s, fun hi => ?_⟩
    rw [isMicro_of_decodeCommand hd] at hi
    cases hi

end Sys2Proof.Machine
end

section
/-! PROOFS. What one instruction can do, and what it therefore leaves: the frames and the writes of the key store
(10_state.md sections 2 to 5). -/

namespace Sys2Proof.Machine

/-! ### What an instruction can do -/

/-- What a command does, as a function of the state it starts in. -/
inductive CommandMeaning (i : Instr) : Prop where
  /-- It fails a check of its operands (R126). -/
  | rejects (e : Status) (h : ∀ s, exec i s = rejected e s)
  /-- It expands its key and answers from that key and its own operands (R89, R114, R115). -/
  | keys (key : Block) (data : List Byte) (st : Block → Block) (hkey : keyOperand i = some key.toList)
      (h : ∀ s, exec i s = .next (respond .ok data { keyed key s with ST := st s.ST }))
  /-- It transforms its block under the key it finds (R99, R107). -/
  | transforms (f : KeyStore → Block) (hblock : ∃ b, i = .encb b ∨ i = .decb b)
      (h : ∀ s, exec i s =
        if s.KVALID then .next (respond .ok (f s.XK).toList { s with ST := f s.XK, UPC := 0, RUN := none })
        else rejected .keyNotExpanded s)

theorem blockWith_eq_ite {sched : Schedule} (hs : sched ≠ .KS) (b : Block) (s : State) :
    blockWith engine sched b.toList s =
      if s.KVALID then
        .next (respond .ok (blockFunction standardTables sched b s.XK).toList
          { s with ST := blockFunction standardTables sched b s.XK, UPC := 0, RUN := none })
      else rejected .keyNotExpanded s := by
  by_cases hk : s.KVALID = true
  · rw [if_pos hk, blockWith_keyValid hs b hk]
  · rw [if_neg hk, blockWith_keyNotExpanded sched b (Bool.eq_false_iff.mpr hk)]

/-- Every command has one of the three meanings, by the lengths of its operands. -/
theorem commandMeaning (i : Instr) (hi : i.isMicro = false) : CommandMeaning i := by
  cases i with
  | expand key =>
    by_cases h : key.length = 16
    · obtain ⟨k, rfl⟩ := exists_block_of_length h
      exact .keys k _ id rfl (exec_expand k)
    · exact .rejects _ (exec_expand_invalidKeyLength h)
  | encb block =>
    by_cases h : block.length = 16
    · obtain ⟨b, rfl⟩ := exists_block_of_length h
      exact .transforms _ ⟨_, .inl rfl⟩ (blockWith_eq_ite (sched := .ENC) (by decide) b)
    · exact .rejects _ (blockWith_invalidBlockAlignment .ENC h)
  | decb block =>
    by_cases h : block.length = 16
    · obtain ⟨b, rfl⟩ := exists_block_of_length h
      exact .transforms _ ⟨_, .inr rfl⟩ (blockWith_eq_ite (sched := .DEC) (by decide) b)
    · exact .rejects _ (blockWith_invalidBlockAlignment .DEC h)
  | encm key msg =>
    by_cases h : key.length = 16
    · obtain ⟨k, rfl⟩ := exists_block_of_length h
      exact .keys k _ (lastOutput _ (pad msg)) rfl (exec_encm k msg)
    · exact .rejects _ (exec_encm_invalidKeyLength h msg)
  | decm key ct outlen =>
    by_cases h : key.length = 16
    · obtain ⟨k, rfl⟩ := exists_block_of_length h
      by_cases ho : outlen ≤ (pad ct).length
      · exact .keys k _ (lastOutput _ (pad ct)) rfl (exec_decm k ho)
      · exact .rejects _ (exec_decm_invalidOutputLength k (Nat.not_le.mp ho))
    · exact .rejects _ (exec_decm_invalidKeyLength h ct outlen)
  | ark | sb | sr | mc | isb | isr | imc | krot | ksub | krc | kxr => cases hi

/-- What an instruction can leave. -/
inductive InstrEffect (i : Instr) (s : State) : State → Prop where
  /-- A micro-operation changes the datapath only. -/
  | micro (hi : i.isMicro = true) : InstrEffect i s (s.withData (microData standardTables s.data i))
  /-- A command that fails gives its error only. -/
  | error (hi : i.isMicro = false) (e : Status) : InstrEffect i s (respond e [] s)
  /-- A key-expanding command leaves the expansion of its key. -/
  | keyed (key : Block) (data : List Byte) (st : Block) (hkey : keyOperand i = some key.toList) :
      InstrEffect i s (respond .ok data { keyed key s with ST := st })
  /-- A block command leaves its output in `ST`. -/
  | block (hblock : ∃ b, i = .encb b ∨ i = .decb b) (st : Block) :
      InstrEffect i s (respond .ok st.toList { s with ST := st, UPC := 0, RUN := none })

/-- Every instruction completes with one of these effects. -/
theorem exec_effect (i : Instr) (s : State) : ∃ t, exec i s = .next t ∧ InstrEffect i s t := by
  cases hi : i.isMicro with
  | true => exact ⟨_, exec_micro_eq i hi s, .micro hi⟩
  | false =>
    cases commandMeaning i hi with
    | rejects e h => exact ⟨_, h s, .error hi e⟩
    | keys key data st hkey h => exact ⟨_, h s, .keyed key data (st s.ST) hkey⟩
    | transforms f hblock h =>
      by_cases hk : s.KVALID = true
      · exact ⟨_, (h s).trans (if_pos hk), .block hblock (f s.XK)⟩
      · exact ⟨_, (h s).trans (if_neg hk), .error hi .keyNotExpanded⟩

theorem instrEffect_of_exec {i : Instr} {s t : State} (h : exec i s = .next t) : InstrEffect i s t := by
  obtain ⟨u, hu, he⟩ := exec_effect i s
  cases hu.symm.trans h
  exact he

/-- Settles O37: every instruction has its effect. -/
theorem everyInstructionCompletes : Obligations.EveryInstructionCompletes := by
  intro i s
  obtain ⟨t, ht, -⟩ := exec_effect i s
  exact ⟨t, ht⟩

/-- KXR is the one micro-operation that writes `XK` (R14, R86). -/
theorem microData_XK_of_ne (t : Tables) (d : Datapath) (i : Instr) (h : ∀ r, i ≠ .kxr r) :
    (microData t d i).XK = d.XK := by
  cases i with
  | kxr r => exact absurd rfl (h r)
  | expand | encb | decb | encm | decm | ark | sb | sr | mc | isb | isr | imc | krot | ksub | krc => rfl

/-- Settles O54: KXR among the micro-operations, and among the commands those that expand a key. -/
theorem keyStoreIsWrittenOnlyAsSaid : Obligations.KeyStoreIsWrittenOnlyAsSaid := by
  intro i s t h hne
  cases instrEffect_of_exec h with
  | micro hi =>
    by_contra hno
    rw [not_or, not_exists] at hno
    exact hne (microData_XK_of_ne _ _ i hno.1)
  | error hi e => exact absurd rfl hne
  | keyed key data st hkey => exact .inr ⟨key, hkey, rfl⟩
  | block hblock st => exact absurd rfl hne

/-! ### Frames -/

theorem InstrEffect.pending_draws {i : Instr} {s t : State} (h : InstrEffect i s t) :
    t.pending = s.pending ∧ t.draws = s.draws := by
  cases h <;> exact ⟨rfl, rfl⟩

/-- A micro-operation leaves what is no datapath register, and the datapath as its function says. -/
theorem exec_micro_frame {i : Instr} {s t : State} (hi : i.isMicro = true) (h : exec i s = .next t) :
    t.responses = s.responses ∧ t.KVALID = s.KVALID ∧ t.UPC = s.UPC ∧ t.RUN = s.RUN ∧
      t.data = microData standardTables s.data i := by
  cases (exec_micro_eq i hi s).symm.trans h
  exact ⟨rfl, rfl, rfl, rfl, rfl⟩

/-- The transforms of the State register are micro-operations that keep `TW` and `XK`. -/
theorem microData_keeps_TW_XK {i : Instr} (hi : (∃ r, i = .ark r) ∨ i ∈ [.sb, .sr, .mc, .isb, .isr, .imc]) :
    i.isMicro = true ∧ ∀ t d, (microData t d i).TW = d.TW ∧ (microData t d i).XK = d.XK := by
  simp only [List.mem_cons, List.not_mem_nil, or_false] at hi
  obtain ⟨r, rfl⟩ | rfl | rfl | rfl | rfl | rfl | rfl := hi <;> exact ⟨rfl, fun _ _ => ⟨rfl, rfl⟩⟩

/-- The transforms of the temporary word are micro-operations that keep `ST` and `XK`. -/
theorem microData_keeps_ST_XK {i : Instr} (hi : (∃ r, i = .krot r ∨ i = .krc r) ∨ i = .ksub) :
    i.isMicro = true ∧ ∀ t d, (microData t d i).ST = d.ST ∧ (microData t d i).XK = d.XK := by
  obtain ⟨r, rfl | rfl⟩ | rfl := hi <;> exact ⟨rfl, fun _ _ => ⟨rfl, rfl⟩⟩

theorem exec_expand_ST {key : List Byte} {s t : State} (h : exec (.expand key) s = .next t) : t.ST = s.ST := by
  by_cases hk : key.length = 16
  · obtain ⟨k, rfl⟩ := exists_block_of_length hk
    cases (exec_expand k s).symm.trans h
    rfl
  · cases (exec_expand_invalidKeyLength hk s).symm.trans h
    rfl

/-- ENCB and DECB change `ST` and the sequencer only, beside the response (R14). -/
theorem exec_block_frame {i : Instr} {s t : State} (hi : ∃ b, i = .encb b ∨ i = .decb b) (h : exec i s = .next t) :
    t.TW = s.TW ∧ t.XK = s.XK ∧ t.KVALID = s.KVALID := by
  cases instrEffect_of_exec h with
  | micro hm => obtain ⟨b, rfl | rfl⟩ := hi <;> cases hm
  | keyed key data st hkey => obtain ⟨b, rfl | rfl⟩ := hi <;> cases hkey
  | error | block => exact ⟨rfl, rfl, rfl⟩

/-- Settles O55: the micro-operations by what their function keeps, the commands by their effects. -/
theorem instructionFrames : Obligations.InstructionFrames := by
  intro i s t h
  obtain ⟨hpending, hdraws⟩ := (instrEffect_of_exec h).pending_draws
  refine ⟨hpending, hdraws, fun hi => ?_, fun hi => ?_, fun hi => ?_, ?_, ?_, fun hi => exec_block_frame hi h⟩
  · obtain ⟨hresponses, hvalid, hupc, hrun, -⟩ := exec_micro_frame hi h
    exact ⟨hresponses, hvalid, hupc, hrun⟩
  · obtain ⟨hmicro, hkeeps⟩ := microData_keeps_TW_XK hi
    obtain ⟨-, -, -, -, hdata⟩ := exec_micro_frame hmicro h
    obtain ⟨htw, hxk⟩ := hkeeps standardTables s.data
    exact ⟨(congrArg Datapath.TW hdata).trans htw, (congrArg Datapath.XK hdata).trans hxk⟩
  · obtain ⟨hmicro, hkeeps⟩ := microData_keeps_ST_XK hi
    obtain ⟨-, -, -, -, hdata⟩ := exec_micro_frame hmicro h
    obtain ⟨hst, hxk⟩ := hkeeps standardTables s.data
    exact ⟨(congrArg Datapath.ST hdata).trans hst, (congrArg Datapath.XK hdata).trans hxk⟩
  · rintro ⟨r, rfl⟩
    obtain ⟨-, -, -, -, hdata⟩ := exec_micro_frame rfl h
    exact ⟨congrArg Datapath.ST hdata, congrArg Datapath.TW hdata⟩
  · rintro ⟨key, rfl⟩
    exact exec_expand_ST h

end Sys2Proof.Machine
end

section
/-! PROOFS. What one step can do, and what it therefore keeps: the key flag, the sequencer and the invariants (10_state.md
sections 4, 5 and 8). -/

namespace Sys2Proof.Machine

/-- What a step can leave. -/
inductive StepEffect (s : State) : State → Prop where
  /-- Inside a schedule: one micro-operation, and `UPC + 1`. -/
  | turn (i : Instr) (hi : i.isMicro = true) (sched : Schedule) (hrun : s.RUN = some sched) (h : s.UPC.val < 40) :
      StepEffect s { s.withData (microData standardTables s.data i) with UPC := ⟨s.UPC.val + 1, by omega⟩ }
  /-- At the end of a schedule. -/
  | finish (sched : Schedule) (hrun : s.RUN = some sched) : StepEffect s (seqEnd s)
  /-- Between commands, with no event to take. -/
  | wait (hrun : s.RUN = none) (hpending : s.pending = []) : StepEffect s s
  /-- Between commands: the RESET event. -/
  | reset (rest : List HostEvent) (hrun : s.RUN = none) (hpending : s.pending = .reset :: rest) :
      StepEffect s (resetEvent { s with pending := rest })
  /-- Between commands: an illegal opcode. -/
  | illegal (c : Command) (rest : List HostEvent) (hrun : s.RUN = none) (hpending : s.pending = .command c :: rest) :
      StepEffect s (respond .illegalCommand [] { s with pending := rest })
  /-- Between commands: a command that decodes. -/
  | command (c : Command) (rest : List HostEvent) (i : Instr) (t : State) (hrun : s.RUN = none)
      (hpending : s.pending = .command c :: rest) (hd : decodeCommand c = .ok i)
      (ht : InstrEffect i { s with pending := rest } t) : StepEffect s t

/-- A step that goes on has one of these effects. -/
theorem stepEffect_of_step {s t : State} (h : step s = .next t) : StepEffect s t := by
  cases hrun : s.RUN with
  | some sched =>
    rw [step_running_eq hrun] at h
    by_cases hlt : s.UPC.val < 40
    · obtain ⟨i, hi, hturn⟩ := seqStep_of_lt engine sched hlt
      cases hturn.symm.trans h
      exact .turn i hi sched hrun hlt
    · cases (seqStep_of_eq _ sched (by omega)).symm.trans h
      exact .finish sched hrun
  | none =>
    match hp : s.pending with
    | [] =>
      cases (step_idle_wait hrun hp).symm.trans h
      exact .wait hrun hp
    | .reset :: rest =>
      cases (step_idle_reset hrun hp).symm.trans h
      exact .reset rest hrun hp
    | .command c :: rest =>
      rw [step_idle_command hrun hp] at h
      cases hd : decodeCommand c with
      | ok i => exact .command c rest i t hrun hp hd (instrEffect_of_exec ((takeCommand_of_ok hd _).symm.trans h))
      | error e =>
        cases e with
        | illegalCommand =>
          cases (takeCommand_of_illegalCommand hd _).symm.trans h
          exact .illegal c rest hrun hp
        | malformedOperands => cases (takeCommand_of_malformedOperands hd _).symm.trans h

/-! ### The invariants -/

/-- Settles O50: `KVALID` is 0. -/
theorem resetMeetsTheInvariants : Obligations.ResetMeetsTheInvariants := ⟨⟨rfl, rfl⟩, nofun⟩

theorem keyStoreExpanded_keyed (key : Block) (s : State) : KeyStoreExpanded (keyed key s) := by
  intro _
  have hkey : roundKey (expand standardTables key) 0 = key := roundKey_expand standardTables key 0
  exact (congrArg (expand standardTables) hkey).symm

/-- A command keeps the invariants. -/
theorem InstrEffect.inv {i : Instr} {s t : State} (h : InstrEffect i s t) (hi : i.isMicro = false) (hs : Inv s) :
    Inv t := by
  obtain ⟨hidle, hkey⟩ := hs
  cases h with
  | micro hm => cases hi.symm.trans hm
  | error _ e => exact ⟨hidle, hkey⟩
  | keyed key data st hk => exact ⟨⟨rfl, rfl⟩, keyStoreExpanded_keyed key s⟩
  | block hblock st => exact ⟨⟨rfl, rfl⟩, hkey⟩

/-- Settles O51: between commands a step takes an event, and each event keeps the invariants. -/
theorem everyStepKeepsTheInvariants : Obligations.EveryStepKeepsTheInvariants := by
  intro s t hs h
  obtain ⟨hidle, hkey⟩ := hs
  have hnone : s.RUN = none := hidle.1
  cases stepEffect_of_step h with
  | turn i hi sched hrun => cases hnone.symm.trans hrun
  | finish sched hrun => cases hnone.symm.trans hrun
  | wait => exact ⟨hidle, hkey⟩
  | reset rest => exact ⟨⟨rfl, rfl⟩, nofun⟩
  | illegal c rest => exact ⟨hidle, hkey⟩
  | command c rest i _ _ _ hd ht => exact ht.inv (isMicro_of_decodeCommand hd) ⟨hidle, hkey⟩

/-- A command leaves `UPC` as it was, or 0. -/
theorem InstrEffect.sequencer {i : Instr} {s t : State} (h : InstrEffect i s t) (hi : i.isMicro = false) :
    t.RUN = s.RUN ∧ t.UPC = s.UPC ∨ Idle t := by
  cases h with
  | micro hm => cases hi.symm.trans hm
  | error => exact .inl ⟨rfl, rfl⟩
  | keyed | block => exact .inr ⟨rfl, rfl⟩

/-- Settles O52: a turn adds 1 to `UPC` in the schedule that runs, and every other step leaves the engine between
commands. -/
theorem upcIsZeroWhileIdle : Obligations.UpcIsZeroWhileIdle := by
  intro s t hs h
  cases stepEffect_of_step h with
  | turn i hi sched hrun hlt =>
    exact ⟨fun hnone => (nomatch hrun.symm.trans hnone), fun a b ha hb => ⟨Option.some.inj (hb.symm.trans ha), rfl⟩⟩
  | finish => exact ⟨fun _ => rfl, nofun⟩
  | wait hrun => exact ⟨hs, fun a b ha => (nomatch hrun.symm.trans ha)⟩
  | reset => exact ⟨fun _ => rfl, nofun⟩
  | illegal c rest hrun => exact ⟨hs, fun a b ha => (nomatch hrun.symm.trans ha)⟩
  | command c rest i _ hrun _ hd ht =>
    refine ⟨fun hnone => ?_, fun a b ha => (nomatch hrun.symm.trans ha)⟩
    rcases ht.sequencer (isMicro_of_decodeCommand hd) with ⟨-, hupc⟩ | ⟨-, hupc⟩
    · exact hupc.trans (hs hrun)
    · exact hupc

/-- A command changes `KVALID` only by expanding its key (R16). -/
theorem InstrEffect.keyFlag {i : Instr} {s t : State} (h : InstrEffect i s t) (hne : t.KVALID ≠ s.KVALID) :
    t.KVALID = true ∧ ∃ key : Block, keyOperand i = some key.toList ∧ t.XK = expand standardTables key := by
  cases h with
  | micro | error | block => exact absurd rfl hne
  | keyed key data st hkey => exact ⟨rfl, key, hkey, rfl⟩

/-- Settles O53: only a RESET event and a key-expanding command change `KVALID`. -/
theorem keyFlagIsSetAndClearedOnlyAsSaid : Obligations.KeyFlagIsSetAndClearedOnlyAsSaid := by
  intro s t h hne
  cases stepEffect_of_step h with
  | turn | finish | wait | illegal => exact absurd rfl hne
  | reset rest hrun hp => exact ⟨hrun, .inl ⟨rfl, rest, hp⟩⟩
  | command c rest i _ hrun hp hd ht =>
    obtain ⟨hvalid, key, hkey, hxk⟩ := ht.keyFlag hne
    exact ⟨hrun, .inr ⟨hvalid, c, rest, i, key, hp, hd, hkey, hxk⟩⟩

end Sys2Proof.Machine
end

section
/-! PROOFS. What the host cannot tell apart stays so: what a step answers rests on the host's events and on a valid key only
(10_state.md section 8, 60_exceptions.md section 4). -/

namespace Sys2Proof.Machine

/-- The same response to two states that the host cannot tell apart. -/
theorem HostAlike.respond_alike {s t : State} (h : HostAlike s t) (st : Status) (data : List Byte) :
    HostAlike (respond st data s) (respond st data t) := by
  obtain ⟨hs, ht, hp, hr, hk, hx⟩ := h
  exact ⟨hs, ht, hp, congrArg (· ++ [(⟨st, data⟩ : Response)]) hr, hk, hx⟩

/-- A command answers two states that the host cannot tell apart alike: with its error, from its own key, or from the key
that both hold. -/
theorem HostAlike.exec_alike {s t : State} (h : HostAlike s t) {i : Instr} (hi : i.isMicro = false) :
    AlikeOutcomes (exec i s) (exec i t) := by
  obtain ⟨-, -, hp, hr, hk, hx⟩ := id h
  cases commandMeaning i hi with
  | rejects e hmeaning =>
    rw [hmeaning, hmeaning]
    exact h.respond_alike e []
  | keys key data st _ hmeaning =>
    rw [hmeaning, hmeaning]
    refine HostAlike.respond_alike ?_ .ok data
    exact ⟨rfl, rfl, hp, hr, rfl, fun _ => rfl⟩
  | transforms f _ hmeaning =>
    rw [hmeaning, hmeaning]
    by_cases hvalid : s.KVALID = true
    · rw [if_pos hvalid, if_pos (hk.symm.trans hvalid), ← hx hvalid]
      refine HostAlike.respond_alike ?_ .ok _
      exact ⟨rfl, rfl, hp, hr, hk, fun _ => rfl⟩
    · rw [if_neg hvalid, if_neg (hk ▸ hvalid)]
      exact h.respond_alike .keyNotExpanded []

theorem HostAlike.takeCommand_alike {s t : State} (h : HostAlike s t) (c : Command) :
    AlikeOutcomes (takeCommand exec c s) (takeCommand exec c t) := by
  cases hd : decodeCommand c with
  | ok i =>
    rw [takeCommand_of_ok hd, takeCommand_of_ok hd]
    exact h.exec_alike (isMicro_of_decodeCommand hd)
  | error e =>
    cases e with
    | illegalCommand =>
      rw [takeCommand_of_illegalCommand hd, takeCommand_of_illegalCommand hd]
      exact h.respond_alike .illegalCommand []
    | malformedOperands =>
      rw [takeCommand_of_malformedOperands hd, takeCommand_of_malformedOperands hd]
      rfl

/-- One step keeps two engines alike. -/
theorem HostAlike.step_alike {s t : State} (h : HostAlike s t) : AlikeOutcomes (step s) (step t) := by
  obtain ⟨hs, ht, hp, hr, hk, hx⟩ := id h
  match hps : s.pending with
  | [] =>
    rw [step_idle_wait hs hps, step_idle_wait ht (hp ▸ hps)]
    exact h
  | .reset :: rest =>
    rw [step_idle_reset hs hps, step_idle_reset ht (hp ▸ hps)]
    exact ⟨rfl, rfl, rfl, hr, rfl, nofun⟩
  | .command c :: rest =>
    rw [step_idle_command hs hps, step_idle_command ht (hp ▸ hps)]
    refine HostAlike.takeCommand_alike ?_ c
    exact ⟨hs, ht, rfl, hr, hk, hx⟩

/-- Alike outcomes go on to alike outcomes. -/
theorem AlikeOutcomes.andThen_alike {o p : Host.Outcome State Fault Refusal} {f : State → Host.Outcome State Fault Refusal}
    (h : AlikeOutcomes o p) (hf : ∀ s t, HostAlike s t → AlikeOutcomes (f s) (f t)) :
    AlikeOutcomes (andThen o f) (andThen p f) := by
  cases o <;> cases p
  case next.next s t => exact hf s t h
  case fault.fault => exact h
  case refused.refused => exact h
  all_goals cases h

/-- Settles O56: step by step. -/
theorem unspecifiedContentsAreNeverObserved : Obligations.UnspecifiedContentsAreNeverObserved := by
  intro s t h n
  induction n generalizing s t with
  | zero => exact h
  | succ n ih => exact h.step_alike.andThen_alike ih

end Sys2Proof.Machine
end

section
/-! PROOFS. The field laws, inverses and the construction of the S-box, and the facts about the tables that rest on them
(40_gf_tables.md sections 1, 3 and 6). -/

namespace Sys2Proof.Machine

/-! ### The laws of multiplication -/

/-- Doubling is additive: where both bytes overflow, the two reductions cancel (R64). -/
theorem xtime_xor (a b : Byte) : xtime (a ^^^ b) = xtime a ^^^ xtime b := by
  have hshift : (a ^^^ b) <<< 1 = (a <<< 1) ^^^ (b <<< 1) := BitVec.shiftLeft_xor_distrib a b 1
  unfold xtime
  rw [hshift, BitVec.getLsbD_xor]
  generalize a <<< 1 = x, b <<< 1 = y
  cases a.getLsbD 7 <;> cases b.getLsbD 7
  · rfl
  · exact BitVec.xor_assoc x y 0x1B
  · show x ^^^ y ^^^ 0x1B = x ^^^ 0x1B ^^^ y
    ac_rfl
  · show x ^^^ y = x ^^^ 0x1B ^^^ (y ^^^ 0x1B)
    simp [BitVec.xor_comm y, BitVec.xor_assoc]

theorem iterate_xtime_xor (n : Nat) (a b : Byte) : xtime^[n] (a ^^^ b) = xtime^[n] a ^^^ xtime^[n] b := by
  induction n generalizing a b with
  | zero => rfl
  | succ n ih => rw [Function.iterate_succ_apply, xtime_xor, ih]; rfl

/-- The sum of R63 is additive in the byte that is doubled. -/
theorem foldl_xtime_xor (a b c : Byte) (l : List Nat) (p q : Byte) :
    l.foldl (fun p i => if c.getLsbD i then xtime^[i] (a ^^^ b) ^^^ p else p) (p ^^^ q) =
      l.foldl (fun p i => if c.getLsbD i then xtime^[i] a ^^^ p else p) p ^^^
        l.foldl (fun p i => if c.getLsbD i then xtime^[i] b ^^^ p else p) q := by
  induction l generalizing p q with
  | nil => rfl
  | cons i l ih =>
    simp only [List.foldl_cons]
    cases c.getLsbD i with
    | false => exact ih p q
    | true =>
      simp only [if_true]
      rw [← ih, iterate_xtime_xor]
      congr 1
      ac_rfl

theorem gmul_xor_left (a b c : Byte) : gmul (a ^^^ b) c = gmul a c ^^^ gmul b c := by
  simp only [gmul_eq_foldl_xtime]
  exact foldl_xtime_xor a b c _ 0 0

/-- A function that is additive and commutes with doubling commutes with multiplication. -/
theorem map_gmul {f : Byte → Byte} (hadd : ∀ a b, f (a ^^^ b) = f a ^^^ f b)
    (hdouble : ∀ a, f (xtime a) = xtime (f a)) (a b : Byte) :
    f (gmul a b) = gmul (f a) b := by
  have hpow (i : Nat) (x : Byte) : f (xtime^[i] x) = xtime^[i] (f x) :=
    (Function.Semiconj.iterate_right (f := f) (ga := xtime) (gb := xtime) hdouble i) x
  have hfold (l : List Nat) (p : Byte) :
      f (l.foldl (fun p i => if b.getLsbD i then xtime^[i] a ^^^ p else p) p) =
        l.foldl (fun p i => if b.getLsbD i then xtime^[i] (f a) ^^^ p else p) (f p) := by
    induction l generalizing p with
    | nil => rfl
    | cons i l ih =>
      rw [List.foldl_cons, List.foldl_cons, ih]
      cases b.getLsbD i with
      | false => rfl
      | true => simp only [if_true, hadd, hpow]
  have hzero : f 0 = 0 := by simpa using hadd 0 0
  rw [gmul_eq_foldl_xtime, gmul_eq_foldl_xtime, hfold, hzero]

theorem gmul_xtime_left (a b : Byte) : gmul (xtime a) b = xtime (gmul a b) :=
  (map_gmul xtime_xor (fun _ => rfl) a b).symm

theorem gmul_one_left : ∀ b, gmul 1 b = b := by decide +kernel

/-- Multiplication by `c` commutes with multiplication by `b`: it is additive and commutes with doubling. -/
theorem gmul_right_comm (a b c : Byte) : gmul (gmul a b) c = gmul (gmul a c) b :=
  map_gmul (f := fun x => gmul x c) (fun x y => gmul_xor_left x y c) (fun x => gmul_xtime_left x c) a b

theorem gmul_comm (a b : Byte) : gmul a b = gmul b a :=
  calc gmul a b = gmul (gmul 1 a) b := by rw [gmul_one_left]
    _ = gmul (gmul 1 b) a := gmul_right_comm 1 a b
    _ = gmul b a := by rw [gmul_one_left]

theorem gmul_assoc (a b c : Byte) : gmul (gmul a b) c = gmul a (gmul b c) :=
  calc gmul (gmul a b) c = gmul (gmul b a) c := by rw [gmul_comm a b]
    _ = gmul (gmul b c) a := gmul_right_comm b a c
    _ = gmul a (gmul b c) := gmul_comm _ _

theorem gmul_xor_right (a b c : Byte) : gmul a (b ^^^ c) = gmul a b ^^^ gmul a c := by
  rw [gmul_comm, gmul_xor_left, gmul_comm b, gmul_comm c]

theorem gmul_one (a : Byte) : gmul a 1 = a := by rw [gmul_comm, gmul_one_left]

theorem gmul_zero (a : Byte) : gmul a 0 = 0 := by simp [gmul_eq_foldl_xtime]

theorem gmul_zero_left (a : Byte) : gmul 0 a = 0 := by rw [gmul_comm, gmul_zero]

/-- Settles O6: multiplication by a byte is additive and commutes with doubling, from which the rest follows. -/
theorem fieldMultiplicationLaws : Obligations.FieldMultiplicationLaws :=
  fun a b c => ⟨gmul_comm a b, gmul_assoc a b c, gmul_xor_left a b c, gmul_one a, gmul_zero a⟩

/-! ### Inverses and the S-box -/

/-- A byte has at most one inverse. -/
theorem gmul_inverse_unique {b y z : Byte} (hy : gmul b y = 1) (hz : gmul b z = 1) : y = z :=
  calc y = gmul y (gmul b z) := by rw [hz, gmul_one]
    _ = gmul (gmul y b) z := (gmul_assoc y b z).symm
    _ = z := by rw [gmul_comm y b, hy, gmul_one_left]

/-- The search of R67 finds an inverse where there is one. -/
theorem inv_eq_of_gmul_eq_one {b y : Byte} (hy : gmul b y = 1) : inv b = y := by
  have hmem : y ∈ (List.range 256).map (BitVec.ofNat 8) :=
    List.mem_map.mpr ⟨y.toNat, List.mem_range.mpr y.isLt, BitVec.ofNat_toNat 8 y⟩
  unfold inv
  cases hf : ((List.range 256).map (BitVec.ofNat 8)).find? fun z => gmul b z == 1 with
  | none => exact absurd (beq_iff_eq.mpr hy) (List.find?_eq_none.mp hf y hmem)
  | some z => exact gmul_inverse_unique (beq_iff_eq.mp (List.find?_some hf :)) hy

theorem inv_zero : inv 0 = 0 := by
  have hf : (((List.range 256).map (BitVec.ofNat 8)).find? fun z => gmul 0 z == 1) = none :=
    List.find?_eq_none.mpr fun z _ => by rw [gmul_zero_left]; decide
  rw [inv, hf]
  rfl

/-- The inverse of the affine transform of R68. -/
def invAffine (y : Byte) : Byte := y.rotateLeft 1 ^^^ y.rotateLeft 3 ^^^ y.rotateLeft 6 ^^^ 0x05

theorem affine_invAffine : ∀ y, affine (invAffine y) = y := by decide +kernel

/-- The S-box without its affine transform gives each byte's inverse. -/
theorem gmul_invAffine_SBOX : ∀ b, b ≠ 0 → gmul b (invAffine (standardTables.SBOX b)) = 1 := by decide +kernel

theorem inv_eq_invAffine_SBOX (b : Byte) : inv b = invAffine (standardTables.SBOX b) := by
  by_cases hb : b = 0
  · subst hb
    exact inv_zero.trans (by decide +kernel)
  · exact inv_eq_of_gmul_eq_one (gmul_invAffine_SBOX b hb)

theorem gmul_inv {b : Byte} (hb : b ≠ 0) : gmul b (inv b) = 1 := by
  rw [inv_eq_invAffine_SBOX, gmul_invAffine_SBOX b hb]

theorem standardTables_SBOX (b : Byte) : standardTables.SBOX b = affine (inv b) := by
  rw [inv_eq_invAffine_SBOX, affine_invAffine]

/-- Settles O8: the inverse of a byte is its S-box entry without the affine transform. -/
theorem substitutionTableIsItsConstruction : Obligations.SubstitutionTableIsItsConstruction :=
  ⟨inv_zero, fun b => ⟨fun hb => ⟨gmul_inv hb, fun _ hy => (inv_eq_of_gmul_eq_one hy).symm⟩, standardTables_SBOX b⟩⟩

/-- Multiplication by a byte other than 0 is undone by multiplication by its inverse. -/
theorem gmul_bijective {k : Byte} (hk : k ≠ 0) : Function.Bijective fun b => gmul b k := by
  refine Function.bijective_iff_has_inverse.mpr ⟨fun b => gmul b (inv k), fun b => ?_, fun b => ?_⟩
  · show gmul (gmul b k) (inv k) = b
    rw [gmul_assoc, gmul_inv hk, gmul_one]
  · show gmul (gmul b (inv k)) k = b
    rw [gmul_right_comm, gmul_assoc, gmul_inv hk, gmul_one]

/-! ### The tables -/

theorem INVSBOX_SBOX : ∀ b, standardTables.INVSBOX (standardTables.SBOX b) = b := by decide +kernel

theorem SBOX_INVSBOX : ∀ b, standardTables.SBOX (standardTables.INVSBOX b) = b := by decide +kernel

theorem SBOX_no_fixed_point : ∀ b, standardTables.SBOX b ≠ b ∧ standardTables.SBOX b ≠ b ^^^ 0xFF := by decide +kernel

/-- The standard tables are lawful (R65, R70). -/
theorem standardTables_lawful : LawfulTables standardTables where
  inv_sub := INVSBOX_SBOX
  sub_inv := SBOX_INVSBOX
  mul2 b := (standardTables_MUL2 b).trans (gmul_two b).symm
  mul3 b := (standardTables_MUL3 b).trans (gmul_three b).symm
  mul9 b := (standardTables_MUL9 b).trans (gmul_nine b).symm
  mul11 b := (standardTables_MUL11 b).trans (gmul_eleven b).symm
  mul13 b := (standardTables_MUL13 b).trans (gmul_thirteen b).symm
  mul14 b := (standardTables_MUL14 b).trans (gmul_fourteen b).symm

/-- The multiplication tables with their constants. -/
def multiplicationTables (t : Tables) : List ((Byte → Byte) × Byte) :=
  [(t.MUL2, 2), (t.MUL3, 3), (t.MUL9, 9), (t.MUL11, 11), (t.MUL13, 13), (t.MUL14, 14)]

/-- Each multiplication table multiplies by its constant, which is not 0. -/
theorem multiplicationTables_eq {t : Tables} (ht : LawfulTables t) :
    ∀ m ∈ multiplicationTables t, m.1 = (fun b => gmul b m.2) ∧ m.2 ≠ 0 := by
  simp only [multiplicationTables, List.forall_mem_cons]
  refine ⟨⟨funext ht.mul2, by decide⟩, ⟨funext ht.mul3, by decide⟩, ⟨funext ht.mul9, by decide⟩,
    ⟨funext ht.mul11, by decide⟩, ⟨funext ht.mul13, by decide⟩, ⟨funext ht.mul14, by decide⟩, nofun⟩

/-- Fact (c): a multiplication table is linear, and its entry 1 is its constant. -/
theorem multiplicationTables_linear {t : Tables} (ht : LawfulTables t) :
    ∀ m ∈ multiplicationTables t, m.1 0x00 = 0x00 ∧ m.1 0x01 = m.2 ∧ ∀ a b, m.1 (a ^^^ b) = m.1 a ^^^ m.1 b := by
  intro m hm
  obtain ⟨heq, -⟩ := multiplicationTables_eq ht m hm
  rw [heq]
  exact ⟨gmul_zero_left _, gmul_one_left _, fun a b => gmul_xor_left a b _⟩

/-- Fact (d): a multiplication table is a bijection. -/
theorem multiplicationTables_bijective {t : Tables} (ht : LawfulTables t) :
    ∀ m ∈ multiplicationTables t, Function.Bijective m.1 := by
  intro m hm
  obtain ⟨heq, hk⟩ := multiplicationTables_eq ht m hm
  rw [heq]
  exact gmul_bijective hk

/-- Fact (e): a sum of tables is the product by the sum of their constants. -/
theorem multiplicationTables_sums {t : Tables} (ht : LawfulTables t) (b : Byte) :
    t.MUL3 b = t.MUL2 b ^^^ b ∧ t.MUL9 b ^^^ t.MUL11 b ^^^ t.MUL13 b ^^^ t.MUL14 b = b ∧
      t.MUL2 b ^^^ t.MUL3 b = b := by
  rw [ht.mul2, ht.mul3, ht.mul9, ht.mul11, ht.mul13, ht.mul14, ← gmul_xor_right, ← gmul_xor_right, ← gmul_xor_right,
    ← gmul_xor_right]
  refine ⟨?_, gmul_one b, gmul_one b⟩
  calc gmul b 3 = gmul b (2 ^^^ 1) := rfl
    _ = gmul b 2 ^^^ b := by rw [gmul_xor_right, gmul_one]

/-- Settles O9: the substitutions entry by entry, the multiplication tables as multiplications. -/
theorem tableFacts : Obligations.TableFacts :=
  ⟨fun b => ⟨INVSBOX_SBOX b, SBOX_INVSBOX b⟩, SBOX_no_fixed_point, multiplicationTables_linear standardTables_lawful,
    multiplicationTables_bijective standardTables_lawful, multiplicationTables_sums standardTables_lawful,
    by decide, by decide, by decide, by decide⟩

end Sys2Proof.Machine
end

section
/-! PROOFS. The transforms of a block undo each other: the substitutions, the row shifts and the column transforms, the
last as products of circulant matrices over the field, then `Encrypt` and `Decrypt`, and the block commands
(42_forward_transform.md sections 1 and 2, 43_inverse_transform.md). -/

namespace Sys2Proof.Machine

/-! ### Products with a circulant matrix -/

/-- The sum of four bytes of the field. -/
def xorSum (f : Fin 4 → Byte) : Byte := f 0 ^^^ f 1 ^^^ f 2 ^^^ f 3

theorem gmul_xorSum_left (f : Fin 4 → Byte) (c : Byte) : gmul (xorSum f) c = xorSum fun j => gmul (f j) c := by
  simp only [xorSum, gmul_xor_left]

theorem gmul_xorSum_right (c : Byte) (f : Fin 4 → Byte) : gmul c (xorSum f) = xorSum fun j => gmul c (f j) := by
  simp only [xorSum, gmul_xor_right]

theorem xorSum_comm (f : Fin 4 → Fin 4 → Byte) :
    (xorSum fun i => xorSum fun j => f i j) = xorSum fun j => xorSum fun i => f i j := by
  simp only [xorSum]
  ac_rfl

/-- A sum with one entry of `f` picked out. -/
theorem xorSum_indicator (f : Fin 4 → Byte) (row : Fin 4) :
    (xorSum fun j => gmul (if j = row then 1 else 0) (f j)) = f row := by
  have hentry (j : Fin 4) : gmul (if j = row then 1 else 0) (f j) = if j = row then f j else 0 := by
    split
    · exact gmul_one_left (f j)
    · exact gmul_zero_left (f j)
  simp only [hentry, xorSum]
  match row with
  | 0 | 1 | 2 | 3 => simp

/-- Row `row` of the product of a column with the circulant matrix of first row `k`: the entry of row `row` and column `j` is
number `j - row` of `k`. -/
def circulantProduct (k : Vector Byte 4) (c : Fin 4 → Byte) (row : Fin 4) : Byte :=
  xorSum fun j => gmul k[j - row] (c j)

theorem foldl_xor_eq_circulantProduct (k : Vector Byte 4) (c : Fin 4 → Byte) (row : Fin 4) :
    (List.finRange 4).foldl (fun acc j => acc ^^^ gmul k[j - row] (c j)) 0 = circulantProduct k c row := by
  simp [List.finRange_succ, circulantProduct, xorSum]

/-- The four rows written out. -/
theorem circulantProduct_eq_getElem (k0 k1 k2 k3 : Byte) (c : Fin 4 → Byte) (row : Fin 4) :
    circulantProduct #v[k0, k1, k2, k3] c row =
      (#v[gmul k0 (c 0) ^^^ gmul k1 (c 1) ^^^ gmul k2 (c 2) ^^^ gmul k3 (c 3),
        gmul k3 (c 0) ^^^ gmul k0 (c 1) ^^^ gmul k1 (c 2) ^^^ gmul k2 (c 3),
        gmul k2 (c 0) ^^^ gmul k3 (c 1) ^^^ gmul k0 (c 2) ^^^ gmul k1 (c 3),
        gmul k1 (c 0) ^^^ gmul k2 (c 1) ^^^ gmul k3 (c 2) ^^^ gmul k0 (c 3)])[row] := by
  match row with
  | 0 | 1 | 2 | 3 => rfl

/-- The first row of the matrix M of MixColumns (R96). -/
def mixRow : Vector Byte 4 := #v[2, 3, 1, 1]

/-- The first row of the matrix N of InverseMixColumns (R103). -/
def invMixRow : Vector Byte 4 := #v[14, 11, 13, 9]

/-- Two circulant matrices whose product is the identity undo each other on every column. -/
theorem circulantProduct_cancel {k l : Vector Byte 4}
    (hkl : ∀ row m : Fin 4, (xorSum fun j => gmul k[j - row] l[m - j]) = if m = row then 1 else 0)
    (c : Fin 4 → Byte) (row : Fin 4) : circulantProduct k (circulantProduct l c) row = c row :=
  calc circulantProduct k (circulantProduct l c) row
      = xorSum fun j => xorSum fun m => gmul (gmul k[j - row] l[m - j]) (c m) := by
        simp only [circulantProduct, gmul_xorSum_right, gmul_assoc]
    _ = xorSum fun m => gmul (xorSum fun j => gmul k[j - row] l[m - j]) (c m) := by
        rw [xorSum_comm]
        simp only [gmul_xorSum_left]
    _ = c row := by simp only [hkl, xorSum_indicator]

/-- N times M is the identity: fact (f) of 40_gf_tables.md section 6, for every entry. -/
theorem invMixRow_mul_mixRow : ∀ row m : Fin 4,
    (xorSum fun j => gmul invMixRow[j - row] mixRow[m - j]) = if m = row then 1 else 0 := by
  decide

theorem mixRow_mul_invMixRow : ∀ row m : Fin 4,
    (xorSum fun j => gmul mixRow[j - row] invMixRow[m - j]) = if m = row then 1 else 0 := by
  decide

/-! ### Blocks in the matrix view, and rounds in reverse -/

/-- Two blocks that agree in the matrix view are equal (R12). -/
theorem block_ext_matrix {b b' : Block} (h : ∀ row col, matrixByte b row col = matrixByte b' row col) : b = b' := by
  ext i hi : 1
  have hbyte := h ⟨i % 4, by omega⟩ ⟨i / 4, by omega⟩
  simp only [matrixByte, Nat.div_add_mod] at hbyte
  exact hbyte

theorem invShiftRows_shiftRows (b : Block) : invShiftRows (shiftRows b) = b :=
  block_ext_matrix fun row col => by rw [matrixByte_invShiftRows, matrixByte_shiftRows, sub_add_cancel]

theorem shiftRows_invShiftRows (b : Block) : shiftRows (invShiftRows b) = b :=
  block_ext_matrix fun row col => by rw [matrixByte_shiftRows, matrixByte_invShiftRows, add_sub_cancel_right]

/-- Steps that are undone one by one are undone in the reverse order. -/
theorem foldl_reverse_foldl {α ι : Type} {f g : α → ι → α} (h : ∀ a i, g (f a i) i = a) (is : List ι) (a : α) :
    is.reverse.foldl g (is.foldl f a) = a := by
  induction is generalizing a with
  | nil => rfl
  | cons i is ih =>
    rw [List.foldl_cons, List.reverse_cons, List.foldl_append, ih]
    exact h a i

/-! ### The column transforms -/

section Lawful
variable {t : Tables} (ht : LawfulTables t)
include ht

/-- MixColumns multiplies each column by M (R96). -/
theorem matrixByte_mixColumns (b : Block) (row col : Fin 4) :
    matrixByte (mixColumns t b) row col = circulantProduct mixRow (fun j => matrixByte b j col) row := by
  rw [mixColumns, matrixByte_mapColumns, mixRow, circulantProduct_eq_getElem]
  simp only [mixColumn, ht.mul2, ht.mul3, gmul_comm _ 2, gmul_comm _ 3, gmul_one_left]

/-- InverseMixColumns multiplies each column by N (R103). -/
theorem matrixByte_invMixColumns (b : Block) (row col : Fin 4) :
    matrixByte (invMixColumns t b) row col = circulantProduct invMixRow (fun j => matrixByte b j col) row := by
  rw [invMixColumns, matrixByte_mapColumns, invMixRow, circulantProduct_eq_getElem]
  simp only [invMixColumn, ht.mul9, ht.mul11, ht.mul13, ht.mul14, gmul_comm _ 9, gmul_comm _ 11, gmul_comm _ 13,
    gmul_comm _ 14]

/-! ### Each transform and its inverse -/

theorem invSubBytes_subBytes (b : Block) : invSubBytes t (subBytes t b) = b := by
  ext i hi : 1
  simp only [invSubBytes, subBytes, getElem_tabulate, Fin.getElem_fin, ht.inv_sub]

theorem subBytes_invSubBytes (b : Block) : subBytes t (invSubBytes t b) = b := by
  ext i hi : 1
  simp only [invSubBytes, subBytes, getElem_tabulate, Fin.getElem_fin, ht.sub_inv]

theorem invMixColumns_mixColumns (b : Block) : invMixColumns t (mixColumns t b) = b := by
  refine block_ext_matrix fun row col => ?_
  simp only [matrixByte_invMixColumns ht, matrixByte_mixColumns ht]
  exact circulantProduct_cancel invMixRow_mul_mixRow _ row

theorem mixColumns_invMixColumns (b : Block) : mixColumns t (invMixColumns t b) = b := by
  refine block_ext_matrix fun row col => ?_
  simp only [matrixByte_invMixColumns ht, matrixByte_mixColumns ht]
  exact circulantProduct_cancel mixRow_mul_invMixRow _ row

/-- An inverse round undoes the standard round with the same round key (R98, R106). -/
theorem inverseRound_forwardRound (xk : KeyStore) (b : Block) (r : Fin 11) :
    inverseRound t xk (forwardRound t xk b r) r = b := by
  rw [inverseRound, forwardRound, xorBytes_cancel_right, invMixColumns_mixColumns ht, invShiftRows_shiftRows,
    invSubBytes_subBytes ht]

theorem forwardRound_inverseRound (xk : KeyStore) (b : Block) (r : Fin 11) :
    forwardRound t xk (inverseRound t xk b r) r = b := by
  rw [inverseRound, forwardRound, subBytes_invSubBytes ht, shiftRows_invShiftRows, mixColumns_invMixColumns ht,
    xorBytes_cancel_right]

theorem decrypt_encrypt (b : Block) (xk : KeyStore) : decrypt t (encrypt t b xk) xk = b := by
  simp only [decrypt, encrypt, xorBytes_cancel_right, invShiftRows_shiftRows, invSubBytes_subBytes ht]
  have hrounds := foldl_reverse_foldl (inverseRound_forwardRound ht xk) [1, 2, 3, 4, 5, 6, 7, 8, 9]
    (xorBytes b (roundKey xk 0))
  exact (congrArg (xorBytes · (roundKey xk 0)) hrounds).trans (xorBytes_cancel_right b _)

theorem encrypt_decrypt (b : Block) (xk : KeyStore) : encrypt t (decrypt t b xk) xk = b := by
  simp only [decrypt, encrypt, xorBytes_cancel_right]
  have hrounds := foldl_reverse_foldl (forwardRound_inverseRound ht xk) [9, 8, 7, 6, 5, 4, 3, 2, 1]
    (invSubBytes t (invShiftRows (xorBytes b (roundKey xk 10))))
  refine (congrArg (fun s => xorBytes (shiftRows (subBytes t s)) (roundKey xk 10)) hrounds).trans ?_
  rw [subBytes_invSubBytes ht, shiftRows_invShiftRows, xorBytes_cancel_right]

end Lawful

/-! ### The statements -/

/-- Settles O20: the columns are products with M and N, and the sum over a row is a fold of exclusive-or. -/
theorem columnTransformsAreMatrixProducts : Obligations.ColumnTransformsAreMatrixProducts :=
  fun s => ⟨⟨_, exec_micro_eq .mc rfl s, fun row col =>
      (matrixByte_mixColumns standardTables_lawful s.ST row col).trans (foldl_xor_eq_circulantProduct mixRow _ row).symm⟩,
    ⟨_, exec_micro_eq .imc rfl s, fun row col =>
      (matrixByte_invMixColumns standardTables_lawful s.ST row col).trans
        (foldl_xor_eq_circulantProduct invMixRow _ row).symm⟩⟩

/-- Two micro-operations in turn compose their functions on the datapath. -/
theorem andThen_exec_micro {i j : Instr} (hi : i.isMicro = true) (hj : j.isMicro = true) (s : State) :
    andThen (exec i s) (exec j) =
      .next (s.withData (microData standardTables (microData standardTables s.data i) j)) := by
  rw [exec_micro_eq i hi, andThen_next, exec_micro_eq j hj]
  rfl

/-- A micro-operation whose function undoes that of another restores the state. -/
theorem andThen_exec_micro_cancel {i j : Instr} (hi : i.isMicro = true) (hj : j.isMicro = true) {s : State}
    (h : microData standardTables (microData standardTables s.data i) j = s.data) :
    andThen (exec i s) (exec j) = .next s := by
  rw [andThen_exec_micro hi hj, h]
  rfl

/-- Two micro-operations whose functions of `ST` undo each other, in both orders. -/
theorem andThen_exec_ST_cancel {i j : Instr} {f g : Block → Block} (hi : i.isMicro = true) (hj : j.isMicro = true)
    (hf : ∀ d, microData standardTables d i = { d with ST := f d.ST })
    (hg : ∀ d, microData standardTables d j = { d with ST := g d.ST })
    (hgf : ∀ b, g (f b) = b) (hfg : ∀ b, f (g b) = b) (s : State) :
    andThen (exec i s) (exec j) = .next s ∧ andThen (exec j s) (exec i) = .next s :=
  ⟨andThen_exec_micro_cancel hi hj (by rw [hf, hg, hgf]), andThen_exec_micro_cancel hj hi (by rw [hg, hf, hfg])⟩

/-- Settles O21: each pair undoes each other on `ST`, and the exclusive-or with a round key undoes itself. -/
theorem microOperationsUndoEachOther : Obligations.MicroOperationsUndoEachOther := by
  intro s
  refine ⟨?_, fun r => andThen_exec_micro_cancel rfl rfl ?_⟩
  · simp only [List.forall_mem_cons]
    exact ⟨andThen_exec_ST_cancel rfl rfl (fun _ => rfl) (fun _ => rfl)
        (invSubBytes_subBytes standardTables_lawful) (subBytes_invSubBytes standardTables_lawful) s,
      andThen_exec_ST_cancel rfl rfl (fun _ => rfl) (fun _ => rfl) invShiftRows_shiftRows shiftRows_invShiftRows s,
      andThen_exec_ST_cancel rfl rfl (fun _ => rfl) (fun _ => rfl)
        (invMixColumns_mixColumns standardTables_lawful) (mixColumns_invMixColumns standardTables_lawful) s, nofun⟩
  · exact congrArg (fun st : Block => { s.data with ST := st }) (xorBytes_cancel_right s.ST (roundKey s.XK r))

/-- Settles O42: round by round, from the last to the first. -/
theorem blockRoundTrip : Obligations.BlockRoundTrip :=
  ⟨standardTables_lawful, fun _ ht b xk => ⟨decrypt_encrypt ht b xk, encrypt_decrypt ht b xk⟩⟩

/-- Where `KVALID = 1` a block command answers with its block transformed under `XK`, and leaves the key state (R99,
R107). -/
theorem blockWith_answers {sched : Schedule} (hs : sched ≠ .KS) (b : Block) {s : State} (hk : s.KVALID = true) :
    ∃ t, blockWith engine sched b.toList s = .next t ∧
      t.responses = s.responses ++ [⟨.ok, (blockFunction standardTables sched b s.XK).toList⟩] ∧
      t.KVALID = true ∧ t.XK = s.XK :=
  ⟨_, blockWith_keyValid hs b hk, rfl, hk, rfl⟩

/-- Settles O43: the second command transforms the answer of the first under the key that the first leaves. -/
theorem blockCommandsRoundTrip : Obligations.BlockCommandsRoundTrip := by
  intro b s hk
  have henc : Schedule.ENC ≠ .KS := by decide
  have hdec : Schedule.DEC ≠ .KS := by decide
  obtain ⟨t, ht, htr, htk, htx⟩ := blockWith_answers henc b hk
  obtain ⟨u, hu, hur, -, -⟩ := blockWith_answers hdec (encrypt standardTables b s.XK) htk
  obtain ⟨v, hv, hvr, hvk, hvx⟩ := blockWith_answers hdec b hk
  obtain ⟨w, hw, hwr, -, -⟩ := blockWith_answers henc (decrypt standardTables b s.XK) hvk
  simp only [blockFunction, htx, decrypt_encrypt standardTables_lawful] at hur
  simp only [blockFunction, hvx, encrypt_decrypt standardTables_lawful] at hwr
  exact ⟨_, _, t, u, v, w, ht, htr, hu, hur, hv, hvr, hw, hwr⟩

end Sys2Proof.Machine
end

section
/-! PROOFS. `Expand` as the recurrence of the key schedule, and that any round key determines the key
(41_key_scheduler.md R88, section 4). -/

namespace Sys2Proof.Machine

/-- The round constant of KRC as an exclusive-or with a word (R82). -/
theorem xorRoundConstant_eq_xorBytes (t : Tables) (r : Round) (w : Word4) :
    xorRoundConstant t r w = xorBytes w #v[t.RCON r, 0, 0, 0] := by
  ext i hi : 1
  interval_cases i <;> simp [xorRoundConstant]

theorem roundKey_expand_zero (t : Tables) (key : Block) : roundKey (expand t key) 0 = key :=
  roundKey_expand t key 0

/-- Each round key of `Expand` is made from the one before it (R88). -/
theorem roundKey_expand_index (t : Tables) (key : Block) (r : Round) :
    roundKey (expand t key) r.index = nextRoundKey t r (roundKey (expand t key) r.before) := by
  rw [roundKey_expand, roundKey_expand]
  rfl

/-- The four words of each round key of `Expand` (R88). -/
theorem keyWord_expand_index (t : Tables) (key : Block) (r : Round) :
    let w (r : Fin 11) (j : Fin 4) := keyWord (expand t key) r j
    w r.index 0 = xorBytes (xorBytes (subWord t (rotWord (w r.before 3))) #v[t.RCON r, 0, 0, 0]) (w r.before 0) ∧
    w r.index 1 = xorBytes (w r.before 1) (w r.index 0) ∧
    w r.index 2 = xorBytes (w r.before 2) (w r.index 1) ∧
    w r.index 3 = xorBytes (w r.before 3) (w r.index 2) := by
  have hwords := blockWord_nextRoundKey t r (roundKey (expand t key) r.before)
  rw [← roundKey_expand_index, scheduleWord, xorRoundConstant_eq_xorBytes] at hwords
  simpa only [blockWord_roundKey] using hwords

/-- Settles O40: the words of each next round key, and the key schedule run on the loaded key. -/
theorem expandIsTheKeySchedule : Obligations.ExpandIsTheKeySchedule := by
  intro key
  refine ⟨roundKey_expand_zero standardTables key, keyWord_expand_index standardTables key, fun s => ?_⟩
  have hrun := run_KS engine (loadKey key s)
  rw [roundKey_loadKey] at hrun
  exact ⟨_, hrun, rfl, rfl⟩

/-- The step from one round key to the next is injective: words 3, 2 and 1 come back from two neighbouring new words, and
then word 0 from new word 0 and old word 3 (R88). -/
theorem nextRoundKey_injective (t : Tables) (r : Round) : Function.Injective (nextRoundKey t r) := by
  intro b b' h
  obtain ⟨h0, h1, h2, h3⟩ := blockWord_nextRoundKey t r b
  obtain ⟨h0', h1', h2', h3'⟩ := blockWord_nextRoundKey t r b'
  rw [h] at h0 h1 h2 h3
  have hcancel {x y z : Word4} (hxy : xorBytes x z = xorBytes y z) : x = y := by
    rw [← xorBytes_cancel_right x z, hxy, xorBytes_cancel_right]
  have e1 := hcancel (h1.symm.trans h1')
  have e2 := hcancel (h2.symm.trans h2')
  have e3 := hcancel (h3.symm.trans h3')
  have e0 : blockWord b 0 = blockWord b' 0 := by
    rw [scheduleWord, e3, ← scheduleWord, xorBytes_comm] at h0
    rw [xorBytes_comm] at h0'
    exact hcancel (h0.symm.trans h0')
  refine block_ext_words b b' fun j => ?_
  match j with
  | 0 => exact e0
  | 1 => exact e1
  | 2 => exact e2
  | 3 => exact e3

theorem expandedRoundKey_injective (t : Tables) {key key' : Block} {n : Nat} (hn : n < 11)
    (h : expandedRoundKey t key n hn = expandedRoundKey t key' n hn) : key = key' := by
  induction n with
  | zero => exact h
  | succ n ih => exact ih (by omega) (nextRoundKey_injective t _ h)

/-- Settles O41: back from round key r to round key 0, which is the key. -/
theorem anyRoundKeyDeterminesTheKey : Obligations.AnyRoundKeyDeterminesTheKey := by
  intro key key' r h
  rw [roundKey_expand, roundKey_expand] at h
  exact expandedRoundKey_injective standardTables r.isLt h

end Sys2Proof.Machine
end

section
/-! PROOFS. Messages as lists of blocks: encryption of a concatenation, and decryption of an encrypted message
(44_block_driver.md section 4). -/

namespace Sys2Proof.Machine

/-- The chunks of a padded string, in order (R110). -/
def chunks (p : List Byte) : List Block := (List.finRange (chunkCount p)).map (chunk p)

/-- The byte string that a list of blocks makes. -/
def blockBytes (bs : List Block) : List Byte := bs.flatMap Vector.toList

theorem length_blockBytes (bs : List Block) : (blockBytes bs).length = 16 * bs.length :=
  length_flatMap_blocks id bs

theorem blockBytes_append (bs bs' : List Block) : blockBytes (bs ++ bs') = blockBytes bs ++ blockBytes bs' :=
  List.flatMap_append

/-- Chunk k is bytes 16k to 16k+15 (R110). -/
theorem chunk_toList (p : List Byte) (k : Fin (chunkCount p)) : (chunk p k).toList = (p.drop (16 * k.val)).take 16 := by
  have hk : k.val < p.length / 16 := k.isLt
  refine List.ext_getElem (by simp; omega) fun i _ _ => ?_
  simp [chunk]

/-- The chunks of a string of blocks are the blocks. -/
theorem chunks_blockBytes (bs : List Block) : chunks (blockBytes bs) = bs := by
  have hcount : chunkCount (blockBytes bs) = bs.length := by
    rw [chunkCount, length_blockBytes, Nat.mul_div_cancel_left _ (by decide)]
  refine List.ext_getElem (by simp [chunks, hcount]) fun i hi hi' => ?_
  simp only [chunks, List.getElem_map, List.getElem_finRange]
  refine Vector.toList_inj.mp ?_
  rw [chunk_toList]
  exact take_drop_flatMap_blocks id bs i hi'

/-- A string of whole chunks is a string of blocks. -/
theorem exists_blockBytes {m : List Byte} (h : m.length % 16 = 0) : ∃ bs, m = blockBytes bs := by
  obtain ⟨n, hn⟩ : ∃ n, m.length = 16 * n := ⟨m.length / 16, by omega⟩
  induction n generalizing m with
  | zero => exact ⟨[], List.length_eq_zero_iff.mp hn⟩
  | succ n ih =>
    obtain ⟨b, hb⟩ := exists_block_of_length (l := m.take 16) (by simp; omega)
    obtain ⟨bs, hbs⟩ := ih (m := m.drop 16) (by simp; omega) (by simp; omega)
    refine ⟨b :: bs, ?_⟩
    rw [← List.take_append_drop 16 m, hb, hbs]
    rfl

theorem length_pad_mod (m : List Byte) : (pad m).length % 16 = 0 := by
  rw [length_pad, Nat.mul_mod_right]

theorem pad_blockBytes (bs : List Block) : pad (blockBytes bs) = blockBytes bs :=
  pad_of_mod_eq_zero (by rw [length_blockBytes, Nat.mul_mod_right])

/-- Padding a message that begins with whole chunks pads the rest (R109). -/
theorem pad_append {a : List Byte} (ha : a.length % 16 = 0) (b : List Byte) : pad (a ++ b) = a ++ pad b := by
  have hmod : (a.length + b.length) % 16 = b.length % 16 := by omega
  rw [pad, pad, List.length_append, hmod, List.append_assoc]

/-- The message is the beginning of its padding (R109). -/
theorem take_length_pad (m : List Byte) : (pad m).take m.length = m :=
  List.take_left' rfl

/-! ### The message functions on lists of blocks -/

/-- `EncryptMessage` encrypts block by block (R111). -/
theorem encryptMessage_eq {t : Tables} {m : List Byte} {bs : List Block} (h : pad m = blockBytes bs) (key : Block) :
    encryptMessage t m key = blockBytes (bs.map fun b => encrypt t b (expand t key)) := by
  have hchunks : bs = chunks (pad m) := by rw [h, chunks_blockBytes]
  rw [hchunks, chunks, blockBytes, List.map_map, List.flatMap_map]
  rfl

/-- `DecryptMessage` decrypts block by block and keeps the first `outlen` bytes (R112). -/
theorem decryptMessage_blockBytes (t : Tables) (bs : List Block) (key : Block) (outlen : Nat) :
    decryptMessage t (blockBytes bs) key outlen =
      (blockBytes (bs.map fun b => decrypt t b (expand t key))).take outlen := by
  have hchunks : bs = chunks (pad (blockBytes bs)) := by rw [pad_blockBytes, chunks_blockBytes]
  conv_rhs => rw [hchunks, chunks, blockBytes, List.map_map, List.flatMap_map]
  rfl

/-- Decrypting an encrypted message gives the beginning of its padding (R111, R112). -/
theorem decryptMessage_encryptMessage {t : Tables} (ht : LawfulTables t) (m : List Byte) (key : Block) (outlen : Nat) :
    decryptMessage t (encryptMessage t m key) key outlen = (pad m).take outlen := by
  obtain ⟨bs, hbs⟩ := exists_blockBytes (length_pad_mod m)
  have hblocks : (bs.map fun b => encrypt t b (expand t key)).map (fun b => decrypt t b (expand t key)) = bs := by
    simp [Function.comp_def, decrypt_encrypt ht]
  rw [encryptMessage_eq hbs, decryptMessage_blockBytes, hblocks, hbs]

/-- Settles O46: both sides encrypt the same blocks. -/
theorem encryptionOfConcatenation : Obligations.EncryptionOfConcatenation := by
  intro key a b ha
  obtain ⟨as, has⟩ := exists_blockBytes ha
  obtain ⟨bs, hbs⟩ := exists_blockBytes (length_pad_mod b)
  have hpadA : pad a = blockBytes as := (pad_of_mod_eq_zero ha).trans has
  have hpadAB : pad (a ++ b) = blockBytes (as ++ bs) := by rw [pad_append ha, hbs, blockBytes_append, ← has]
  refine ⟨?_, ?_⟩
  · rw [encryptMessage_eq hpadAB, encryptMessage_eq hpadA, encryptMessage_eq hbs, List.map_append, blockBytes_append]
  · rw [encryptMessage_eq hbs, encryptMessage_eq ((pad_pad b).trans hbs)]

/-- Settles O47: the message's own length cuts the padding off, and the padded length nothing. -/
theorem messageRoundTrip : Obligations.MessageRoundTrip := by
  intro key p
  rw [decryptMessage_encryptMessage standardTables_lawful, decryptMessage_encryptMessage standardTables_lawful]
  exact ⟨take_length_pad p, List.take_length⟩

end Sys2Proof.Machine
end

section
/-! PROOFS. The status codes (30_encoding.md section 2). -/

namespace Sys2Proof.Machine

/-- Every status, in the order of the codes (R50). -/
def allStatuses : List Status :=
  [.ok, .invalidKeyLength, .invalidBlockAlignment, .keyNotExpanded, .invalidOutputLength, .illegalCommand]

theorem mem_allStatuses (a : Status) : a ∈ allStatuses := by
  cases a <;> decide

theorem map_code_allStatuses : allStatuses.map Status.code = [0x00, 0x01, 0x02, 0x03, 0x04, 0x05] := rfl

/-- Settles O36: the list of codes has no code twice and none above 0x05. -/
theorem statusCodes : Obligations.StatusCodes := by
  refine ⟨map_code_allStatuses, fun a b => ⟨?_, ?_⟩⟩
  · have hbound : ∀ c ∈ allStatuses.map Status.code, c.toNat ≤ 5 := by decide
    exact hbound _ (List.mem_map_of_mem (mem_allStatuses a))
  · have hnodup : (allStatuses.map Status.code).Nodup := by decide
    exact List.inj_on_of_nodup_map hnodup (mem_allStatuses a) (mem_allStatuses b)

end Sys2Proof.Machine
end
